-- ==== Sys2Proof/Word.lean ====
section
/-! DEFINITION. The word types of FS20-CORE: a byte of the packet buffer or of the symbol port, and one
bit of the bit stream (10_state.md R30, R32, R33). Bit 0 is the least significant bit (00_scope.md R12). -/

namespace Sys2Proof

/-- A byte: a symbol word (30_encoding.md R61) or a packet-buffer element (10_state.md R30). -/
abbrev Byte := BitVec 8

/-- A bit of the bit stream (30_encoding.md R63). Addition of two bits is their sum mod 2. -/
abbrev Bit := BitVec 1

end Sys2Proof
end

