-- ==== Sys2Proof/Config.lean ====
section
/-! DEFINITION. What an implementation fixes (00_scope.md R7 to R11, 10_state.md R40) and the free values: constants
without a body, for what the spec leaves open (93_implementation_defined.md sections 1 and 3). -/

namespace Sys2Proof

/-- The static parameters of one instance. A model takes them as arguments; here they stand in State,
where no step writes them (entry 1). -/
structure Params where
  /-- SAMPLE_RATE_HZ, R in every rule, symbols per second (R7). -/
  sampleRateHz : Nat
  /-- CNT_W, the width of the two PTD run counters (R9). -/
  cntW : Nat
  /-- TS_W, the width of the time input and of the timestamp (R10). -/
  tsW : Nat
  /-- NOUT_W, the width of the rate query's input (R11). -/
  noutW : Nat
  /-- The two units composed into one block, or used separately (R40). -/
  composed : Bool
  deriving DecidableEq, Repr

/-- CNT_MAX, the value at which a PTD counter saturates (R9). -/
def Params.cntMax (p : Params) : Nat := 2 ^ p.cntW - 1

/-- The instances the spec admits: R ≥ 1 (R7) and a counter wide enough (R9). -/
abbrev Params.Legal (p : Params) : Prop :=
  1 ≤ p.sampleRateHz ∧ 1425000 * p.sampleRateHz < p.cntMax * 1000000000

/-- The free value behind the sample rate, an OPEN parameter without a default (R7; entry 2). -/
opaque Config.rateDraw : Nat

/-- How many sample rates the default CNT_W = 32 admits by R9: every rate from 1 to this number. -/
def Config.maxRate : Nat := 3014012136842

/-- The parameters of the instance that State.reset describes: any rate the default counter width
admits (entry 2), the defaults of R9 to R11, the units composed (R40; entry 4). -/
def Config.params : Params where
  sampleRateHz := Config.rateDraw % Config.maxRate + 1
  cntW := 32
  tsW := 64
  noutW := 32
  composed := true

/-- TIME_FORMAT: how many seconds a time value means. An OPEN parameter no rule reads (R10; entry 25). -/
opaque Config.timeFormat : Nat → Rat

/-- Byte i of the packet buffer after the RESET operation numbered by the draw (R155; entry 9). -/
opaque Config.freePktByte : Nat → Nat → Byte

/-- The timestamp register after the RESET operation numbered by the draw (R155; entry 9). -/
opaque Config.freeResetTime : Nat → Nat

/-- The time a sync bit records where `time_in` is not stable at its edge (R170; entry 11). -/
opaque Config.freeTime : Nat → Nat

/-- A delivery lane that carries nothing (10_state.md R38; entry 12): the draw, then the lane. -/
opaque Config.freeLane : Nat → Nat → Byte

/-- `pkt_len` while `pkt_valid` is 0 (R156; entry 12). -/
opaque Config.freeLen : Nat → BitVec 3

/-- `pkt_ts` while `pkt_valid` is 0 (R156; entry 12). -/
opaque Config.freePktTime : Nat → Nat

/-- `bit_data` while `bit_valid` is 0 (10_state.md R33; entry 12). -/
opaque Config.freeBit : Nat → Bit

/-- `rate_nin` on an edge for which the host names no `rate_nout` (10_state.md R34; entry 12). -/
opaque Config.freeRate : Nat → Nat

end Sys2Proof
end

