-- ==== Sys2Proof/Syntax.lean ====
section
/-! DEFINITION. The operations of FS20-CORE: one constructor for each row of spec/opcode_table.json
(30_encoding.md R61 to R66). The block runs no program; a "word" is what an input port carries. -/

namespace Sys2Proof

/-- The four input formats (30_encoding.md R61, R63, R65, R66), one for each port that starts an operation. -/
inductive Format where
  /-- SYM8, an eight-bit symbol on `sym_data` (R61). -/
  | sym8
  /-- BIT1, one bit on `fbit_data` (R63). -/
  | bit1
  /-- RATEQ, the unsigned `n_out` on `rate_nout` (R65). -/
  | rateq
  /-- RST1, the level of `rst` at a clock edge (R66). -/
  | rst1
  deriving DecidableEq, Repr

/-- What one input port carries: its format and its bits as a number, bit 0 least significant. -/
structure PortWord where
  format : Format
  bits : Nat
  deriving DecidableEq, Repr

/-- One operation, a constructor a row. The seven rows of SYM_INVALID keep the bits their mask leaves
free: row 0x02/0xFE one bit, up to row 0x80/0x80 seven (R62; entry 27). -/
inductive Instr where
  /-- SYM0, a low symbol (40_pulse_timing.md R84). -/
  | sym0
  /-- SYM1, a high symbol (R82, R83). -/
  | sym1
  /-- SYM_INVALID, row 0x02/0xFE (R85). -/
  | symInvalid02 (low : BitVec 1)
  /-- SYM_INVALID, row 0x04/0xFC (R85). -/
  | symInvalid04 (low : BitVec 2)
  /-- SYM_INVALID, row 0x08/0xF8 (R85). -/
  | symInvalid08 (low : BitVec 3)
  /-- SYM_INVALID, row 0x10/0xF0 (R85). -/
  | symInvalid10 (low : BitVec 4)
  /-- SYM_INVALID, row 0x20/0xE0 (R85). -/
  | symInvalid20 (low : BitVec 5)
  /-- SYM_INVALID, row 0x40/0xC0 (R85). -/
  | symInvalid40 (low : BitVec 6)
  /-- SYM_INVALID, row 0x80/0x80 (R85). -/
  | symInvalid80 (low : BitVec 7)
  /-- FBIT0, the FSM's bit 0 (41_frame_machine.md R106). -/
  | fbit0
  /-- FBIT1, the FSM's bit 1 (R106). -/
  | fbit1
  /-- RATE_QUERY for `n_out` output bits (40_pulse_timing.md R100). -/
  | rateQuery (nOut : Nat)
  /-- RESET, `rst = 1` at a clock edge (70_reset_and_hazards.md R153). -/
  | reset
  deriving DecidableEq, Repr

end Sys2Proof
end

