-- ==== Sys2Proof/WellFormed.lean ====
section
/-! DEFINITION. Which operations an instance's ports can carry. Every constructor but RATE_QUERY is well formed by
its type; a rate query's operand fits the NOUT_W wires of `rate_nout` (30_encoding.md R65). -/

namespace Sys2Proof

/-- The operation's operands fit the ports of an instance with these parameters. -/
def Instr.WellFormed (p : Params) (i : Instr) : Bool :=
  match i with
  | .rateQuery nOut => decide (nOut < 2 ^ p.noutW)
  | .sym0 | .sym1 | .fbit0 | .fbit1 | .reset => true
  | .symInvalid02 _ | .symInvalid04 _ | .symInvalid08 _ | .symInvalid10 _ => true
  | .symInvalid20 _ | .symInvalid40 _ | .symInvalid80 _ => true

end Sys2Proof
end

