-- ==== Sys2Proof/Decode.lean ====
section
/-! DEFINITION. The decoder of a port's word, total, rejecting by name, and the encoder, both from the tables of
30_encoding.md R61 to R66 and R73. A word always means the same, whatever the state (R75). -/

namespace Sys2Proof

/-- Why a port's word is no operation. -/
inductive DecodeError where
  /-- The word has a bit above its port's width (R61, R65, R75). -/
  | wordTooWide
  /-- A value outside 0 and 1 as FSM input, in a model that takes bytes (R73(b), R107). -/
  | notABit
  /-- `rst = 0`: no reset, and no operation (R66). -/
  | resetNotAsserted
  deriving DecidableEq, Repr

/-- The decoding of an eight-bit symbol, total on all 256 values (R62). Each test is one row's mask and match. -/
def decodeSymbol (s : Byte) : Instr :=
  if s &&& 0xFF#8 = 0x00#8 then .sym0
  else if s &&& 0xFF#8 = 0x01#8 then .sym1
  else if s &&& 0xFE#8 = 0x02#8 then .symInvalid02 (s.extractLsb' 0 1)
  else if s &&& 0xFC#8 = 0x04#8 then .symInvalid04 (s.extractLsb' 0 2)
  else if s &&& 0xF8#8 = 0x08#8 then .symInvalid08 (s.extractLsb' 0 3)
  else if s &&& 0xF0#8 = 0x10#8 then .symInvalid10 (s.extractLsb' 0 4)
  else if s &&& 0xE0#8 = 0x20#8 then .symInvalid20 (s.extractLsb' 0 5)
  else if s &&& 0xC0#8 = 0x40#8 then .symInvalid40 (s.extractLsb' 0 6)
  else .symInvalid80 (s.extractLsb' 0 7)

/-- The decoding of a one-bit FSM word (R63); a value that is no bit is refused (R73(b)). -/
def decodeBit (w : Nat) : Except DecodeError Instr :=
  if w = 0 then .ok .fbit0 else if w = 1 then .ok .fbit1 else .error .notABit

/-- The decoding of a rate query: every value of the port's NOUT_W wires is legal (R65). -/
def decodeRate (p : Params) (w : Nat) : Except DecodeError Instr :=
  if w < 2 ^ p.noutW then .ok (.rateQuery w) else .error .wordTooWide

/-- The decoding of the `rst` level (R66). -/
def decodeReset (w : Nat) : Except DecodeError Instr :=
  if w = 1 then .ok .reset else if w = 0 then .error .resetNotAsserted else .error .wordTooWide

/-- The decoder: the port's format selects the table, the word selects the row. -/
def decode (p : Params) (w : PortWord) : Except DecodeError Instr :=
  match w.format with
  | .sym8 => if w.bits < 256 then .ok (decodeSymbol (BitVec.ofNat 8 w.bits)) else .error .wordTooWide
  | .bit1 => decodeBit w.bits
  | .rateq => decodeRate p w.bits
  | .rst1 => decodeReset w.bits

/-- The word of an operation: the row's match value with the operand's bits in the places its mask
leaves free (R62, R63, R65, R66). -/
def encode (i : Instr) : PortWord :=
  match i with
  | .sym0 => ⟨.sym8, 0x00⟩
  | .sym1 => ⟨.sym8, 0x01⟩
  | .symInvalid02 low => ⟨.sym8, 0x02 + low.toNat⟩
  | .symInvalid04 low => ⟨.sym8, 0x04 + low.toNat⟩
  | .symInvalid08 low => ⟨.sym8, 0x08 + low.toNat⟩
  | .symInvalid10 low => ⟨.sym8, 0x10 + low.toNat⟩
  | .symInvalid20 low => ⟨.sym8, 0x20 + low.toNat⟩
  | .symInvalid40 low => ⟨.sym8, 0x40 + low.toNat⟩
  | .symInvalid80 low => ⟨.sym8, 0x80 + low.toNat⟩
  | .fbit0 => ⟨.bit1, 0⟩
  | .fbit1 => ⟨.bit1, 1⟩
  | .rateQuery nOut => ⟨.rateq, nOut⟩
  | .reset => ⟨.rst1, 1⟩

/-- A row of the opcode table: a port's words whose masked bits are the match value. -/
structure Row where
  mnemonic : String
  format : Format
  mask : Nat
  pattern : Nat
  deriving DecidableEq, Repr

/-- The rows of the symbol port (30_encoding.md R62). -/
def symbolRows : List Row :=
  [⟨"SYM0", .sym8, 0xFF, 0x00⟩, ⟨"SYM1", .sym8, 0xFF, 0x01⟩,
   ⟨"SYM_INVALID", .sym8, 0xFE, 0x02⟩, ⟨"SYM_INVALID", .sym8, 0xFC, 0x04⟩,
   ⟨"SYM_INVALID", .sym8, 0xF8, 0x08⟩, ⟨"SYM_INVALID", .sym8, 0xF0, 0x10⟩,
   ⟨"SYM_INVALID", .sym8, 0xE0, 0x20⟩, ⟨"SYM_INVALID", .sym8, 0xC0, 0x40⟩,
   ⟨"SYM_INVALID", .sym8, 0x80, 0x80⟩]

/-- The rows of the other three ports (R63, R65, R66). -/
def otherRows : List Row :=
  [⟨"FBIT0", .bit1, 1, 0⟩, ⟨"FBIT1", .bit1, 1, 1⟩,
   ⟨"RATE_QUERY", .rateq, 0, 0⟩, ⟨"RESET", .rst1, 1, 1⟩]

/-- The word has the row's match value under the row's mask. -/
def Row.fits (r : Row) (w : PortWord) : Bool :=
  decide (w.format = r.format) && decide (w.bits &&& r.mask = r.pattern)

/-- The opcode table's row of an operation. -/
def Instr.row (i : Instr) : Row :=
  match i with
  | .sym0 => ⟨"SYM0", .sym8, 0xFF, 0x00⟩
  | .sym1 => ⟨"SYM1", .sym8, 0xFF, 0x01⟩
  | .symInvalid02 _ => ⟨"SYM_INVALID", .sym8, 0xFE, 0x02⟩
  | .symInvalid04 _ => ⟨"SYM_INVALID", .sym8, 0xFC, 0x04⟩
  | .symInvalid08 _ => ⟨"SYM_INVALID", .sym8, 0xF8, 0x08⟩
  | .symInvalid10 _ => ⟨"SYM_INVALID", .sym8, 0xF0, 0x10⟩
  | .symInvalid20 _ => ⟨"SYM_INVALID", .sym8, 0xE0, 0x20⟩
  | .symInvalid40 _ => ⟨"SYM_INVALID", .sym8, 0xC0, 0x40⟩
  | .symInvalid80 _ => ⟨"SYM_INVALID", .sym8, 0x80, 0x80⟩
  | .fbit0 => ⟨"FBIT0", .bit1, 1, 0⟩
  | .fbit1 => ⟨"FBIT1", .bit1, 1, 1⟩
  | .rateQuery _ => ⟨"RATE_QUERY", .rateq, 0, 0⟩
  | .reset => ⟨"RESET", .rst1, 1, 1⟩

/-- The format a word of the host's table question stands on: the table gives the symbol rows eight
bits, the FSM's bit rows one, the rate query NOUT_W = 32 (entry 6). -/
def tableFormat (nbits : Nat) : Option Format :=
  if nbits = 8 then some .sym8 else if nbits = 1 then some .bit1
  else if nbits = 32 then some .rateq else none

/-- What the decoder gives for a word of the opcode table's numbering (entry 6). -/
def decodeTableWord (nbits w : Nat) : Option Instr :=
  match tableFormat nbits with
  | none => none
  | some f => (decode Config.params ⟨f, w⟩).toOption

end Sys2Proof
end

