-- ==== Sys2Proof/Machine/State.lean ====
section
/-! DEFINITION. The state of one FS20-CORE instance (10_state.md R20 to R44): the PTD's registers, the FSM's
registers with the packet buffer, the ports, and the model's own fields, marked so. Plain data. -/

namespace Sys2Proof.Machine

/-- ParserState (10_state.md R25). -/
inductive FsmState where
  | reset
  | sync
  | head
  | tail
  deriving DecidableEq, Repr

/-- The event codes of the PTD (30_encoding.md R70); noEvent is the code NONE. -/
inductive PtdEvent where
  | noEvent
  | bit0
  | bit1
  | eot
  | invalidTiming
  | invalidSymbol
  deriving DecidableEq, Repr

/-- The event codes of the FSM (30_encoding.md R71); noEvent is the code NONE. -/
inductive FsmEvent where
  | noEvent
  | syncOk
  | syncFail
  | parityError
  | checksumFail
  | delivered
  deriving DecidableEq, Repr

/-- What a completed period is classified as: DecodedBit (00_scope.md R17, 40_pulse_timing.md R86). -/
inductive DecodedBit where
  | bit0
  | bit1
  | eot
  | invalid
  deriving DecidableEq, Repr

/-- One push to the sink: the payload bytes, `pkt[0]` first, and the capture time (30_encoding.md R72). -/
structure Delivery where
  bytes : List Byte
  time : Nat
  deriving DecidableEq, Repr

/-- The packet buffer: pairs of index and byte, indices rising, no pair holding what an unlisted index
reads as (20_memory.md R45; entry 7). -/
abbrev Memory := List Host.Cell

/-- The PTD's registers (10_state.md R21, R22, R24). -/
structure PtdRegs where
  /-- high_count, CNT_W bits (R21). -/
  hc : Nat
  /-- low_count, CNT_W bits (R22). -/
  lc : Nat
  deriving DecidableEq, Repr

/-- The FSM's registers (10_state.md R25 to R31). -/
structure FsmRegs where
  st : FsmState
  /-- Zeros counted in SYNC, bits of the byte in progress in HEAD and TAIL (R26). -/
  nbits : BitVec 4
  /-- Completed bytes (R27). -/
  nbytes : BitVec 3
  /-- Sum mod 2 of the data bits of the byte in progress (R28). -/
  parity : Bit
  /-- The byte count at which the frame is validated: 0 (undecided), 5 or 6 (R29). -/
  lastByte : BitVec 3
  /-- The packet buffer (R30). -/
  pkt : Memory
  /-- The time captured at sync, TS_W bits (R31). -/
  ts : Nat
  deriving DecidableEq, Repr

/-- The levels the host drives on the input ports at one clock edge (10_state.md R32 to R37,
70_reset_and_hazards.md R153). `timeIn` is none where the time is not stable at the edge (R170);
`rateNout` is none where the host asks no rate query. -/
structure Pins where
  rst : Bool
  symValid : Bool
  symData : Byte
  bitReady : Bool
  fbitValid : Bool
  fbitData : Bit
  timeIn : Option Nat
  rateNout : Option Nat
  deriving DecidableEq, Repr

/-- An edge at which the host drives nothing (60_exceptions.md R152). -/
def Pins.idle : Pins :=
  { rst := false, symValid := false, symData := 0, bitReady := false, fbitValid := false,
    fbitData := 0, timeIn := none, rateNout := none }

/-- What the output ports carry for the current edge (10_state.md R32 to R39). A port whose value the
spec leaves unspecified while its strobe is low carries nothing here; Machine/Ports.lean gives the
wires' levels. -/
structure Outputs where
  /-- `sym_ready` (R32). -/
  symReady : Bool
  /-- `bit_valid` with `bit_data` (R33). -/
  bit : Option Bit
  /-- `ptd_evt` (R35). -/
  ptdEvt : PtdEvent
  /-- `fsm_evt` (R39). -/
  fsmEvt : FsmEvent
  /-- `pkt_valid` with the delivery (R38). -/
  pkt : Option Delivery
  /-- `rate_nin` for the query asked on this edge (R34). -/
  rateNin : Option Nat
  deriving DecidableEq, Repr

/-- Outputs without any transaction (R35, R39, R156). -/
def Outputs.quiet : Outputs :=
  { symReady := false, bit := none, ptdEvt := .noEvent, fsmEvt := .noEvent, pkt := none, rateNin := none }

/-- The model's own record of what a claim can speak of (00_scope.md R19), oldest first: one event code
for each transaction of the unit (entry 14). -/
structure Trace where
  bits : List Bit
  deliveries : List Delivery
  ptdEvents : List PtdEvent
  fsmEvents : List FsmEvent
  /-- Symbols consumed, invalid ones included (40_pulse_timing.md R95). -/
  consumed : Nat
  deriving DecidableEq, Repr

/-- The machine. -/
structure State where
  /-- The instance's static parameters; no step writes them (00_scope.md R7 to R11; entry 1). -/
  params : Params
  /-- The PTD's registers. -/
  ptd : PtdRegs
  /-- The FSM's registers. -/
  fsm : FsmRegs
  /-- `time_in` as the TS_W wires carry it at the current edge (10_state.md R37; entries 11, 24). -/
  timeIn : Option Nat
  /-- The clock edges the host is still to drive, the next one first (entry 5). -/
  stimulus : List Pins
  /-- The output ports. -/
  out : Outputs
  /-- What has been observed since the model's start (entry 14). -/
  trace : Trace
  /-- Which draw of the free values comes next (entry 23). -/
  draws : Nat
  deriving DecidableEq, Repr

/-- Why the machine stops. -/
inductive Fault where
  /-- A bit transaction would read or write the packet buffer at an index the buffer does not have
  (20_memory.md R45, R50). Raised by FBIT0, FBIT1 and, composed, SYM1, only in states no run reaches
  (entry 10). Safe: the machine stops where the spec says nothing. -/
  | packetIndex
  deriving DecidableEq, Repr

/-- Why an input has no meaning. -/
inductive Refusal where
  /-- An instruction without a meaning yet, in exec's arm. Safe. -/
  | notModelled (mnemonic : String)
  /-- A port's word that is no operation (30_encoding.md R73(b)). Raised by the step; no level of the
  modelled pins makes one. Safe. -/
  | noOperation (why : DecodeError)
  deriving DecidableEq, Repr

/-- The instance right after reset with the given parameters (70_reset_and_hazards.md R154 to R156). The
packet buffer and the timestamp are unspecified there; here they read zero (entries 7, 8). -/
def State.resetOf (p : Params) : State where
  params := p
  ptd := { hc := 0, lc := 0 }
  fsm := { st := .reset, nbits := 0, nbytes := 0, parity := 0, lastByte := 0, pkt := [], ts := 0 }
  timeIn := none
  stimulus := []
  out := Outputs.quiet
  trace := { bits := [], deliveries := [], ptdEvents := [], fsmEvents := [], consumed := 0 }
  draws := 0

/-- The machine right after reset: an instance with any legal sample rate (entries 2, 4). -/
def State.reset : State := State.resetOf Config.params

end Sys2Proof.Machine
end

