-- ==== Sys2Proof/Machine/Operands.lean ====
section
/-! DEFINITION. The operand arithmetic of the operations: the protocol's constants (00_scope.md R8), exact integer
helpers (R13), the saturating counters, the classification of a period and the rate constant. -/

namespace Sys2Proof.Machine

/-! The protocol constants, in nanoseconds, bits, bytes and indices (00_scope.md R8). -/

def bit0PeriodMin : Nat := 600000
def bit0PeriodMax : Nat := 1000000
def bit0DiffMax : Nat := 250000
def bit1PeriodMin : Nat := 1000000
def bit1PeriodMax : Nat := 1425000
def bit1DiffMax : Nat := 356000
def eotHighMin : Nat := 300000
def eotHighMax : Nat := 500000
def eotLowMin : Nat := 300000
def nsPerS : Nat := 1000000000
def syncZeros : Nat := 12
def maxPktLen : Nat := 6
def cmdBytePos : Nat := 3
def cmdExtBit : Nat := 5
def checksumStart : Nat := 6
def checksumDiff : Nat := 2

/-- |a − b| of the exact integers (00_scope.md R13). -/
def absDiff (a b : Nat) : Nat := (a - b) + (b - a)

/-- ceil(n / d) (00_scope.md R13). -/
def ceilDiv (n d : Nat) : Nat := (n + (d - 1)) / d

/-- One more on a PTD run counter, saturating at CNT_MAX (10_state.md R21, R22). -/
def satSucc (p : Params) (c : Nat) : Nat := min (c + 1) p.cntMax

/-- One more zero in SYNC, saturating at 15 (41_frame_machine.md R113). -/
def satZeros (n : BitVec 4) : BitVec 4 := BitVec.ofNat 4 (min (n.toNat + 1) 15)

/-- Case 1 of the classification, in integers (40_pulse_timing.md R87). -/
def inBit0Window (rate h l : Nat) : Bool :=
  decide (bit0PeriodMin * rate ≤ (h + l) * nsPerS) && decide ((h + l) * nsPerS ≤ bit0PeriodMax * rate)
    && decide (absDiff h l * nsPerS ≤ bit0DiffMax * rate)

/-- Case 2 of the classification, in integers (40_pulse_timing.md R88). -/
def inBit1Window (rate h l : Nat) : Bool :=
  decide (bit1PeriodMin * rate ≤ (h + l) * nsPerS) && decide ((h + l) * nsPerS ≤ bit1PeriodMax * rate)
    && decide (absDiff h l * nsPerS ≤ bit1DiffMax * rate)

/-- Case 3 of the classification, in integers (40_pulse_timing.md R89). -/
def inEotWindow (rate h l : Nat) : Bool :=
  decide (eotHighMin * rate ≤ h * nsPerS) && decide (h * nsPerS ≤ eotHighMax * rate)
    && decide (eotLowMin * rate ≤ l * nsPerS)

/-- The classification of a period of h high and l low samples: the first case that holds decides
(40_pulse_timing.md R86, R90). -/
def classify (rate h l : Nat) : DecodedBit :=
  if inBit0Window rate h l then .bit0
  else if inBit1Window rate h l then .bit1
  else if inEotWindow rate h l then .eot
  else .invalid

/-- The bit a classification emits: only Bit0 and Bit1 leave the PTD (40_pulse_timing.md R82, R96). -/
def DecodedBit.emitted (d : DecodedBit) : Option Bit :=
  match d with
  | .bit0 => some 0
  | .bit1 => some 1
  | .eot | .invalid => none

/-- The event of a classification (40_pulse_timing.md R82). -/
def DecodedBit.event (d : DecodedBit) : PtdEvent :=
  match d with
  | .bit0 => .bit0
  | .bit1 => .bit1
  | .eot => .eot
  | .invalid => .invalidTiming

/-- RATE_K, the most symbols one output bit needs (40_pulse_timing.md R99). -/
def rateK (p : Params) : Nat := ceilDiv (bit1PeriodMax * p.sampleRateHz) nsPerS

/-- K_W, the bits that hold RATE_K (00_scope.md R11). -/
def rateKWidth (p : Params) : Nat := Nat.log2 (rateK p) + 1

/-- One data bit shifted into a byte at its least significant end; bit 7 drops out
(20_memory.md R47, 41_frame_machine.md R109). -/
def shiftIn (old : Byte) (b : Bit) : Byte := BitVec.ofNat 8 (old.toNat * 2 + b.toNat)

/-- The frame length from the command byte: 6 with bit 5 set, else 5 (41_frame_machine.md R120). -/
def frameLength (command : Byte) : BitVec 3 := if command.getLsbD cmdExtBit then 6 else 5

end Sys2Proof.Machine
end

