-- ==== Sys2Proof/Machine/Ops.lean ====
section
/-! DEFINITION. The named operations over the packet buffer, the registers and the ports, each once. -/

namespace Sys2Proof.Machine

/-! ## The packet buffer (20_memory.md R45 to R49) -/

/-- What an index that nothing has written reads as. The spec gives the buffer no reset contents (10_state.md R30):
DESIGN CHOICE, unsafe (entry 7). -/
def Memory.unlisted : Byte := 0

/-- The byte at an index. -/
def Memory.read (m : Memory) (a : Nat) : Byte :=
  match m with
  | [] => Memory.unlisted
  | (k, w) :: rest => if a = k then w else Memory.read rest a

/-- The buffer with one byte changed, in its canonical form. -/
def Memory.write (m : Memory) (a : Nat) (v : Byte) : Memory :=
  match m with
  | [] => if v = Memory.unlisted then [] else [(a, v)]
  | (k, w) :: rest =>
    if a < k then (if v = Memory.unlisted then (k, w) :: rest else (a, v) :: (k, w) :: rest)
    else if a = k then (if v = Memory.unlisted then rest else (a, v) :: rest)
    else (k, w) :: Memory.write rest a v

/-- The canonical form: indices rise, none is at or above the buffer's six, and no entry holds what an
unlisted index reads as. -/
abbrev Memory.Wf (m : Memory) : Prop :=
  m.Pairwise (fun c d => c.1 < d.1) ∧ ∀ c ∈ m, c.1 < maxPktLen ∧ c.2 ≠ Memory.unlisted

/-- A buffer whose six bytes are given. -/
def Memory.ofBytes (f : Nat → Byte) : Memory :=
  (List.range maxPktLen).foldl (fun m i => m.write i (f i)) []

/-- The byte at an index of the buffer; there is none at index 6 or above (20_memory.md R45). -/
def pktRead (m : Memory) (a : Nat) : Option Byte :=
  if a < maxPktLen then some (m.read a) else none

/-- The payload bytes `pkt[0]` to `pkt[n-1]`, in index order (41_frame_machine.md R128). -/
def payload (m : Memory) (n : Nat) : List Byte := (List.range n).map m.read

/-! ## The results of one transaction -/

/-- What one symbol transaction does in the PTD (40_pulse_timing.md R81): the registers after it, at most one
bit, one event code. -/
structure PtdStep where
  regs : PtdRegs
  bit : Option Bit
  event : PtdEvent
  deriving DecidableEq, Repr

/-- What one bit transaction does in the FSM (41_frame_machine.md R106): the registers after it, one event
code, at most one delivery. -/
structure FsmStep where
  regs : FsmRegs
  event : FsmEvent
  delivery : Option Delivery
  deriving DecidableEq, Repr

/-- The move to RESET, the recovery of every FSM error and outcome (60_exceptions.md R136, R144): `st` changes, nothing
else does (41_frame_machine.md R129); the clear comes with the next bit. FS20-CORE takes no other "exception". -/
def FsmRegs.toReset (r : FsmRegs) : FsmRegs := { r with st := .reset }

/-- The return from RESET: `reset_clear()`, with which the next bit begins (41_frame_machine.md R111, R112). -/
def FsmRegs.resetClear (r : FsmRegs) : FsmRegs :=
  { r with nbits := 0, nbytes := 0, parity := 0, lastByte := 0, st := .sync }

/-! ## The transactions' effect on the machine -/

/-- A symbol transaction: the PTD's registers, its bit and event ports, and the record (10_state.md R33, R35,
40_pulse_timing.md R95). -/
def State.applyPtd (t : PtdStep) (s : State) : State :=
  { s with
    ptd := t.regs
    out := { s.out with bit := t.bit, ptdEvt := t.event }
    trace := { s.trace with
      bits := s.trace.bits ++ t.bit.toList
      ptdEvents := s.trace.ptdEvents ++ [t.event]
      consumed := s.trace.consumed + 1 } }

/-- A bit transaction: the FSM's registers, its event port and the sink's port, and the record (10_state.md R38, R39). -/
def State.applyFsm (t : FsmStep) (s : State) : State :=
  { s with
    fsm := t.regs
    out := { s.out with fsmEvt := t.event, pkt := t.delivery }
    trace := { s.trace with
      fsmEvents := s.trace.fsmEvents ++ [t.event]
      deliveries := s.trace.deliveries ++ t.delivery.toList } }

/-- `now`: the value on the time input during the transaction (00_scope.md R15). Where it is not stable
any TS_W-bit value may result (93_implementation_defined.md section 2; entry 11). -/
def State.now (s : State) : Nat :=
  match s.timeIn with
  | some t => t
  | none => Config.freeTime s.draws % 2 ^ s.params.tsW

/-- Reset (70_reset_and_hazards.md R153 to R156): every register takes its reset value. `pkt` and `ts` are
unspecified and become free values (entry 9). The parameters (R157), the stimulus, the rate answer (R156) and the
record stay. -/
def State.applyReset (s : State) : State :=
  { s with
    ptd := { hc := 0, lc := 0 }
    fsm := { st := .reset, nbits := 0, nbytes := 0, parity := 0, lastByte := 0,
             pkt := Memory.ofBytes (Config.freePktByte s.draws),
             ts := Config.freeResetTime s.draws % 2 ^ s.params.tsW }
    out := { Outputs.quiet with rateNin := s.out.rateNin }
    draws := s.draws + 1 }

end Sys2Proof.Machine
end

