-- ==== Sys2Proof/Machine/Flags.lean ====
section
/-! DEFINITION. The one flag FS20-CORE has, the parity accumulator (10_state.md R28, R42), and the checksum test. -/

namespace Sys2Proof.Machine

/-- The parity sum with one more bit, mod 2 (41_frame_machine.md R108). -/
def paritySum (parity b : Bit) : Bit := parity + b

/-- The ninth bit leaves the group odd: a parity error (41_frame_machine.md R108, R110). -/
def parityIsOdd (parity b : Bit) : Bool := decide (paritySum parity b = 1)

/-- `checksum()` over the first n bytes: the start value and the bytes, summed exactly, mod 256
(41_frame_machine.md R124). -/
def checksum (m : Memory) (n : Nat) : Byte :=
  BitVec.ofNat 8 (checksumStart + ((payload m n).map BitVec.toNat).sum)

/-- The received byte is within the tolerance: the plain integer difference is below 2, without
wrap-around (41_frame_machine.md R125). -/
def checksumAccepts (received computed : Byte) : Bool :=
  decide (absDiff received.toNat computed.toNat < checksumDiff)

end Sys2Proof.Machine
end

