-- ==== Sys2Proof/Machine/Fsm.lean ====
section
/-! DEFINITION. The FSM's operations: one bit transaction (41_frame_machine.md R106 to R128), the meanings of FBIT0 and
FBIT1, and the call on a list of bits (R135). A result of none is an index outside the packet buffer (entry 10). -/

namespace Sys2Proof.Machine

/-- What `fill` answers (41_frame_machine.md R108). -/
inductive FillResult where
  /-- The bit is absorbed. -/
  | ok (r : FsmRegs)
  /-- The nine-bit group is odd; nothing is written. -/
  | parityError
  /-- The byte in progress has no place in the buffer (entry 10). -/
  | outsideBuffer
  deriving DecidableEq, Repr

/-- A data bit (41_frame_machine.md R109): into the parity sum and into `pkt[nbytes]`. -/
def fillData (b : Bit) (r : FsmRegs) : FillResult :=
  match pktRead r.pkt r.nbytes.toNat with
  | none => .outsideBuffer
  | some old => .ok { r with
      parity := paritySum r.parity b
      pkt := r.pkt.write r.nbytes.toNat (shiftIn old b)
      nbits := BitVec.ofNat 4 (r.nbits.toNat + 1) }

/-- The parity bit, ninth of its group (41_frame_machine.md R110). -/
def fillParity (b : Bit) (r : FsmRegs) : FillResult :=
  if parityIsOdd r.parity b then .parityError
  else .ok { r with nbits := 0, parity := 0, nbytes := BitVec.ofNat 3 (r.nbytes.toNat + 1) }

/-- `fill(b)`, shared by HEAD and TAIL (41_frame_machine.md R108). -/
def fill (b : Bit) (r : FsmRegs) : FillResult :=
  if r.nbits.toNat = 8 then fillParity b r else fillData b r

/-- A bit in SYNC (41_frame_machine.md R113 to R115). -/
def syncBit (b : Bit) (now : Nat) (r : FsmRegs) : FsmStep :=
  if b = 0 then ⟨{ r with nbits := satZeros r.nbits }, .noEvent, none⟩
  else if syncZeros ≤ r.nbits.toNat then ⟨{ r with ts := now, nbits := 0, st := .head }, .syncOk, none⟩
  else ⟨r.toReset, .syncFail, none⟩

/-- The command byte is complete (41_frame_machine.md R119, R120). -/
def enterTail (r : FsmRegs) : FsmRegs :=
  { r with lastByte := frameLength (r.pkt.read cmdBytePos), st := .tail }

/-- A bit in HEAD (41_frame_machine.md R117 to R119). -/
def headBit (b : Bit) (r : FsmRegs) : Option FsmStep :=
  match fill b r with
  | .parityError => some ⟨r.toReset, .parityError, none⟩
  | .outsideBuffer => none
  | .ok r' =>
    if r'.nbytes.toNat ≤ cmdBytePos then some ⟨r', .noEvent, none⟩
    else some ⟨enterTail r', .noEvent, none⟩

/-- The frame is complete: the checksum decides (41_frame_machine.md R123 to R128). -/
def finishFrame (r : FsmRegs) : Option FsmStep :=
  let r1 := { r with nbytes := r.nbytes - 1 }
  let n := r1.nbytes.toNat
  match pktRead r1.pkt n with
  | none => none
  | some received =>
    if checksumAccepts received (checksum r1.pkt n) then
      some ⟨r1.toReset, .delivered, some ⟨payload r1.pkt n, r1.ts⟩⟩
    else some ⟨r1.toReset, .checksumFail, none⟩

/-- A bit in TAIL (41_frame_machine.md R121 to R123). -/
def tailBit (b : Bit) (r : FsmRegs) : Option FsmStep :=
  match fill b r with
  | .parityError => some ⟨r.toReset, .parityError, none⟩
  | .outsideBuffer => none
  | .ok r' =>
    if r'.nbytes.toNat < r'.lastByte.toNat then some ⟨r', .noEvent, none⟩
    else finishFrame r'

/-- One bit transaction: dispatch on `st`, with the RESET cascade (41_frame_machine.md R106, R111). -/
def fsmTransaction (b : Bit) (now : Nat) (r : FsmRegs) : Option FsmStep :=
  match r.st with
  | .reset => some (syncBit b now r.resetClear)
  | .sync => some (syncBit b now r)
  | .head => headBit b r
  | .tail => tailBit b r

/-- The bit transaction in the machine. -/
def runBit (b : Bit) (s : State) : Host.Outcome State Fault Refusal :=
  match fsmTransaction b s.now s.fsm with
  | some t => .next (s.applyFsm t)
  | none => .fault .packetIndex

/-- FBIT0 (41_frame_machine.md R106). -/
def execFbit0 (s : State) : Host.Outcome State Fault Refusal := runBit 0 s

/-- FBIT1 (41_frame_machine.md R106). -/
def execFbit1 (s : State) : Host.Outcome State Fault Refusal := runBit 1 s

/-- What a call of the FSM on a list of bits gives: registers, and the sequences of events and deliveries. -/
structure FsmRun where
  regs : FsmRegs
  events : List FsmEvent
  deliveries : List Delivery
  deriving DecidableEq, Repr

/-- The FSM on a list of bits, each with its time: every bit is consumed, in order (41_frame_machine.md R135). -/
def consumeBits (r : FsmRegs) (bits : List (Bit × Nat)) : Option FsmRun :=
  match bits with
  | [] => some ⟨r, [], []⟩
  | (b, now) :: rest =>
    match fsmTransaction b now r with
    | none => none
    | some t =>
      match consumeBits t.regs rest with
      | none => none
      | some c => some ⟨c.regs, t.event :: c.events, t.delivery.toList ++ c.deliveries⟩

end Sys2Proof.Machine
end

