-- ==== Sys2Proof/Machine/Ptd.lean ====
section
/-! DEFINITION. The PTD's operations: one symbol transaction (40_pulse_timing.md R81 to R85), the meanings of SYM0, SYM1
and the seven rows of SYM_INVALID, the composition of the two units (10_state.md R40), and the chunk call (R93). -/

namespace Sys2Proof.Machine

/-- SYM1: a period is complete when a low run has begun, else the high run goes on (40_pulse_timing.md R82, R83). -/
def ptdHigh (p : Params) (r : PtdRegs) : PtdStep :=
  if 0 < r.lc then
    let d := classify p.sampleRateHz r.hc r.lc
    ⟨{ hc := 1, lc := 0 }, d.emitted, d.event⟩
  else ⟨{ r with hc := satSucc p r.hc }, none, .noEvent⟩

/-- SYM0: a low symbol counts once a high run has begun (40_pulse_timing.md R84). -/
def ptdLow (p : Params) (r : PtdRegs) : PtdStep :=
  ⟨{ r with lc := if 0 < r.hc then satSucc p r.lc else r.lc }, none, .noEvent⟩

/-- SYM_INVALID: reported, no register changes (40_pulse_timing.md R85). -/
def ptdInvalid (r : PtdRegs) : PtdStep := ⟨r, none, .invalidSymbol⟩

/-- `ptd_step(s)`: the dispatch on the symbol's value (40_pulse_timing.md R81). -/
def ptdTransaction (p : Params) (r : PtdRegs) (s : Byte) : PtdStep :=
  if s = 1 then ptdHigh p r else if s = 0 then ptdLow p r else ptdInvalid r

/-- Composed, an emitted bit is the FSM's transaction too; separate, it only leaves on the port (10_state.md R40). -/
def feedFsm (bit : Option Bit) (s : State) : Host.Outcome State Fault Refusal :=
  match s.params.composed, bit with
  | true, some b => runBit b s
  | true, none => .next s
  | false, _ => .next s

/-- A symbol transaction in the machine: the PTD's step first, the FSM's second, as one change
(20_memory.md R51). -/
def runSymbol (t : PtdStep) (s : State) : Host.Outcome State Fault Refusal :=
  feedFsm t.bit (s.applyPtd t)

/-- SYM0 (40_pulse_timing.md R84). -/
def execSym0 (s : State) : Host.Outcome State Fault Refusal := runSymbol (ptdLow s.params s.ptd) s

/-- SYM1 (40_pulse_timing.md R82, R83). -/
def execSym1 (s : State) : Host.Outcome State Fault Refusal := runSymbol (ptdHigh s.params s.ptd) s

/-- SYM_INVALID, row 0x02/0xFE (40_pulse_timing.md R85). -/
def execSymInvalid02 (_low : BitVec 1) (s : State) : Host.Outcome State Fault Refusal :=
  runSymbol (ptdInvalid s.ptd) s

/-- SYM_INVALID, row 0x04/0xFC (40_pulse_timing.md R85). -/
def execSymInvalid04 (_low : BitVec 2) (s : State) : Host.Outcome State Fault Refusal :=
  runSymbol (ptdInvalid s.ptd) s

/-- SYM_INVALID, row 0x08/0xF8 (40_pulse_timing.md R85). -/
def execSymInvalid08 (_low : BitVec 3) (s : State) : Host.Outcome State Fault Refusal :=
  runSymbol (ptdInvalid s.ptd) s

/-- SYM_INVALID, row 0x10/0xF0 (40_pulse_timing.md R85). -/
def execSymInvalid10 (_low : BitVec 4) (s : State) : Host.Outcome State Fault Refusal :=
  runSymbol (ptdInvalid s.ptd) s

/-- SYM_INVALID, row 0x20/0xE0 (40_pulse_timing.md R85). -/
def execSymInvalid20 (_low : BitVec 5) (s : State) : Host.Outcome State Fault Refusal :=
  runSymbol (ptdInvalid s.ptd) s

/-- SYM_INVALID, row 0x40/0xC0 (40_pulse_timing.md R85). -/
def execSymInvalid40 (_low : BitVec 6) (s : State) : Host.Outcome State Fault Refusal :=
  runSymbol (ptdInvalid s.ptd) s

/-- SYM_INVALID, row 0x80/0x80 (40_pulse_timing.md R85). -/
def execSymInvalid80 (_low : BitVec 7) (s : State) : Host.Outcome State Fault Refusal :=
  runSymbol (ptdInvalid s.ptd) s

/-- What a chunk call gives: the consumed count, the bits, and the registers it leaves (40_pulse_timing.md R93). -/
structure ChunkResult where
  consumed : Nat
  bits : List Bit
  regs : PtdRegs
  deriving DecidableEq, Repr

/-- `consume_chunk(syms, cap)`: a symbol is examined only while there is room for one more bit
(40_pulse_timing.md R93). -/
def consumeChunk (p : Params) (r : PtdRegs) (syms : List Byte) (cap : Nat) : ChunkResult :=
  match syms with
  | [] => ⟨0, [], r⟩
  | s :: rest =>
    if cap = 0 then ⟨0, [], r⟩
    else
      let t := ptdTransaction p r s
      let c := consumeChunk p t.regs rest (cap - t.bit.toList.length)
      ⟨c.consumed + 1, t.bit.toList ++ c.bits, c.regs⟩

end Sys2Proof.Machine
end

