-- ==== Sys2Proof/Machine/System.lean ====
section
/-! DEFINITION. The system-level operations: the rate query (40_pulse_timing.md R99, R100) and reset
(70_reset_and_hazards.md R153 to R158). -/

namespace Sys2Proof.Machine

/-- RATE_QUERY: `rate_nin <- n_out × RATE_K`; no register is read or written (40_pulse_timing.md R100). -/
def execRateQuery (nOut : Nat) (s : State) : Host.Outcome State Fault Refusal :=
  .next { s with out := { s.out with rateNin := some (nOut * rateK s.params) } }

/-- RESET: `rst = 1` at a clock edge (70_reset_and_hazards.md R153). -/
def execReset (s : State) : Host.Outcome State Fault Refusal := .next s.applyReset

end Sys2Proof.Machine
end

