-- ==== Sys2Proof/Machine/Dispatch.lean ====
section
/-! DEFINITION. exec: one arm for each constructor of Instr, each a direct call of its meaning. -/

namespace Sys2Proof.Machine

def exec (i : Instr) (s : State) : Host.Outcome State Fault Refusal :=
  match i with
  | .sym0 => Sys2Proof.Machine.execSym0 s
  | .sym1 => Sys2Proof.Machine.execSym1 s
  | .symInvalid02 low => Sys2Proof.Machine.execSymInvalid02 low s
  | .symInvalid04 low => Sys2Proof.Machine.execSymInvalid04 low s
  | .symInvalid08 low => Sys2Proof.Machine.execSymInvalid08 low s
  | .symInvalid10 low => Sys2Proof.Machine.execSymInvalid10 low s
  | .symInvalid20 low => Sys2Proof.Machine.execSymInvalid20 low s
  | .symInvalid40 low => Sys2Proof.Machine.execSymInvalid40 low s
  | .symInvalid80 low => Sys2Proof.Machine.execSymInvalid80 low s
  | .fbit0 => Sys2Proof.Machine.execFbit0 s
  | .fbit1 => Sys2Proof.Machine.execFbit1 s
  | .rateQuery nOut => Sys2Proof.Machine.execRateQuery nOut s
  | .reset => Sys2Proof.Machine.execReset s

end Sys2Proof.Machine
end

