-- ==== Sys2Proof/Machine/Ports.lean ====
section
/-! DEFINITION. The ports (10_state.md R32 to R40): what the levels at one clock edge present to the decoder, what an edge
samples, and the levels of the output wires. -/

namespace Sys2Proof.Machine

/-- `sym_ready`: 0 under reset (70_reset_and_hazards.md R153), else `bit_ready`, which the composed block ties to 1
(10_state.md R32, R40). -/
def symReady (p : Params) (e : Pins) : Bool := !e.rst && (p.composed || e.bitReady)

/-- The rate query the host asks, on the port's NOUT_W wires (10_state.md R34; entry 17). -/
def Pins.rateWords (p : Params) (e : Pins) : List PortWord :=
  match e.rateNout with
  | none => []
  | some n => [⟨.rateq, n % 2 ^ p.noutW⟩]

/-- The symbol of the edge, where it is accepted: `sym_valid` and `sym_ready` (10_state.md R32). -/
def Pins.symWords (p : Params) (e : Pins) : List PortWord :=
  if e.symValid && symReady p e then [⟨.sym8, e.symData.toNat⟩] else []

/-- The bit of the edge on the FSM's port, which the host drives where the units are separate
(10_state.md R36, R40; entry 18). -/
def Pins.bitWords (p : Params) (e : Pins) : List PortWord :=
  if e.fbitValid && !p.composed then [⟨.bit1, e.fbitData.toNat⟩] else []

/-- The words an edge presents to the decoder. With `rst = 1` no symbol or bit transaction happens, whatever the valid
signals (70_reset_and_hazards.md R153); the rate query does not depend on reset (R156, R170). -/
def Pins.words (p : Params) (e : Pins) : List PortWord :=
  e.rateWords p ++ (if e.rst then [⟨.rst1, 1⟩] else e.symWords p ++ e.bitWords p)

/-- The edge that presents one word of the given format and nothing else, with room for a bit (entry 6). -/
def Pins.presenting (f : Format) (w : Nat) : Pins :=
  match f with
  | .sym8 => { Pins.idle with symValid := true, symData := BitVec.ofNat 8 w, bitReady := true }
  | .bit1 => { Pins.idle with fbitValid := true, fbitData := BitVec.ofNat 1 w }
  | .rateq => { Pins.idle with rateNout := some w }
  | .rst1 => { Pins.idle with rst := w == 1 }

/-- The edge the host drives next; where it drives none, an idle one (60_exceptions.md R152; entry 22). -/
def State.nextEdge (s : State) : Pins := s.stimulus.headD Pins.idle

/-- The machine with an edge sampled: the edge is used up, the time input carries its TS_W bits, the output
ports are quiet but for `sym_ready`, and the free values move on (10_state.md R32 to R39; entries 5, 17). -/
def State.sample (s : State) (e : Pins) : State :=
  { s with
    stimulus := s.stimulus.tail
    timeIn := e.timeIn.map (· % 2 ^ s.params.tsW)
    out := { Outputs.quiet with symReady := symReady s.params e }
    draws := s.draws + 1 }

/-! ## The levels of the output wires -/

/-- The code of a PTD event on `ptd_evt` (30_encoding.md R70). -/
def PtdEvent.code (e : PtdEvent) : BitVec 3 :=
  match e with
  | .noEvent => 0
  | .bit0 => 1
  | .bit1 => 2
  | .eot => 3
  | .invalidTiming => 4
  | .invalidSymbol => 5

/-- The code of an FSM event on `fsm_evt` (30_encoding.md R71). -/
def FsmEvent.code (e : FsmEvent) : BitVec 3 :=
  match e with
  | .noEvent => 0
  | .syncOk => 1
  | .syncFail => 2
  | .parityError => 3
  | .checksumFail => 4
  | .delivered => 5

/-- The code of a ParserState in the register `st` (10_state.md R25). -/
def FsmState.code (st : FsmState) : BitVec 2 :=
  match st with
  | .reset => 0
  | .sync => 1
  | .head => 2
  | .tail => 3

/-- `bit_valid` (10_state.md R33). -/
def State.bitValid (s : State) : Bool := s.out.bit.isSome

/-- `bit_data`; any value while `bit_valid` is 0 (entry 12). -/
def State.bitData (s : State) : Bit := s.out.bit.getD (Config.freeBit s.draws)

/-- `pkt_valid` (10_state.md R38). -/
def State.pktValid (s : State) : Bool := s.out.pkt.isSome

/-- `pkt_len`; any value while `pkt_valid` is 0 (entry 12). -/
def State.pktLen (s : State) : BitVec 3 :=
  match s.out.pkt with
  | some d => BitVec.ofNat 3 d.bytes.length
  | none => Config.freeLen s.draws

/-- `pkt_byte<i>`; any value on a lane that carries nothing (10_state.md R38; entry 12). -/
def State.pktByte (s : State) (i : Nat) : Byte :=
  match s.out.pkt with
  | some d => d.bytes.getD i (Config.freeLane s.draws i)
  | none => Config.freeLane s.draws i

/-- `pkt_ts`; any value while `pkt_valid` is 0 (entry 12). -/
def State.pktTs (s : State) : Nat :=
  match s.out.pkt with
  | some d => d.time
  | none => Config.freePktTime s.draws % 2 ^ s.params.tsW

/-- `rate_nin`; any value of the port where the host names no query (entry 12). -/
def State.rateNin (s : State) : Nat :=
  match s.out.rateNin with
  | some n => n
  | none => Config.freeRate s.draws % 2 ^ (s.params.noutW + rateKWidth s.params)

end Sys2Proof.Machine
end

