-- ==== Sys2Proof/Machine/Edge.lean ====
section
/-! DEFINITION. One clock edge: the transactions it carries, decoded and run in order (70_reset_and_hazards.md R167). -/

namespace Sys2Proof.Machine

/-- The operations that port words stand for, one after the other; the first stop ends the run. -/
def runWords (words : List PortWord) (s : State) : Host.Outcome State Fault Refusal :=
  match words with
  | [] => .next s
  | w :: rest =>
    match decode s.params w with
    | .error e => .refused (.noOperation e)
    | .ok i =>
      match exec i s with
      | .next s' => runWords rest s'
      | .fault f => .fault f
      | .refused r => .refused r

/-- The next clock edge: sample the ports, then run what they present. -/
def clockEdge (s : State) : Host.Outcome State Fault Refusal :=
  runWords (s.nextEdge.words s.params) (s.sample s.nextEdge)

/-- The machine with a word of the opcode table presented on the next edge. A word of the FSM's bit port is
presented to separate units, since the composed block drives that port itself (entries 6, 18). -/
def presentWord (s : State) (nbits w : Nat) : State :=
  match tableFormat nbits with
  | none => s
  | some .bit1 => { s with stimulus := Pins.presenting .bit1 w :: s.stimulus, params := { s.params with composed := false } }
  | some f => { s with stimulus := Pins.presenting f w :: s.stimulus }

end Sys2Proof.Machine
end

