-- ==== Sys2Proof/Safety.lean ====
section
/-! DEFINITION. What a safe run of FS20-CORE is, in the terms the statements use: the machine's invariant (10_state.md R23,
41_frame_machine.md R130), the rules' other forms of the classification (40_pulse_timing.md R86, R91), the frame format on
the bit stream (30_encoding.md R67 to R69), and when two frame machines cannot be told apart (20_memory.md R60). -/

namespace Sys2Proof.Machine

/-! ## The invariant -/

/-- The PTD's counters fit their width (10_state.md R21, R22), and a low run has a high run before it (R23). -/
abbrev PtdRegs.Inv (p : Params) (r : PtdRegs) : Prop :=
  r.hc ≤ p.cntMax ∧ r.lc ≤ p.cntMax ∧ (0 < r.lc → 0 < r.hc)

/-- The FSM's registers hold legal values (10_state.md R26 to R31) and agree with its state
(41_frame_machine.md R130); the packet buffer is in canonical form. -/
abbrev FsmRegs.Inv (p : Params) (r : FsmRegs) : Prop :=
  r.pkt.Wf ∧ r.ts < 2 ^ p.tsW ∧ r.nbytes.toNat ≤ maxPktLen
    ∧ (r.lastByte = 0 ∨ r.lastByte = 5 ∨ r.lastByte = 6)
    ∧ (r.st = .sync → r.nbytes = 0 ∧ r.parity = 0 ∧ r.lastByte = 0)
    ∧ (r.st = .head → r.nbits.toNat ≤ 8 ∧ r.nbytes.toNat ≤ 3 ∧ r.lastByte = 0)
    ∧ (r.st = .tail → r.nbits.toNat ≤ 8 ∧ 4 ≤ r.nbytes.toNat ∧ r.nbytes.toNat < r.lastByte.toNat
        ∧ (r.lastByte = 5 ∨ r.lastByte = 6))

/-- The machine's invariant. -/
abbrev State.Inv (s : State) : Prop :=
  s.params.Legal ∧ s.ptd.Inv s.params ∧ s.fsm.Inv s.params ∧ ∀ t ∈ s.timeIn, t < 2 ^ s.params.tsW

/-- The operation of a bit on the FSM's port (30_encoding.md R63). -/
def bitInstr (b : Bit) : Instr := if b = 0 then .fbit0 else .fbit1

/-- Symbols run one after the other, each decoded (40_pulse_timing.md R81, R102). -/
def runSymbols (syms : List Byte) (s : State) : Host.Outcome State Fault Refusal :=
  match syms with
  | [] => .next s
  | x :: rest =>
    match exec (decodeSymbol x) s with
    | .next t => runSymbols rest t
    | .fault f => .fault f
    | .refused r => .refused r

/-- Bits run one after the other, each with its time on the input (41_frame_machine.md R106, R135). -/
def runBits (bits : List (Bit × Nat)) (s : State) : Host.Outcome State Fault Refusal :=
  match bits with
  | [] => .next s
  | (b, now) :: rest =>
    match exec (bitInstr b) { s with timeIn := some now } with
    | .next t => runBits rest t
    | .fault f => .fault f
    | .refused r => .refused r

/-- The effect of a bit transaction on everything but the FSM's registers: its event and delivery on the ports and in
the record (10_state.md R38, R39). -/
def afterBit (s : State) (r : FsmRegs) (e : FsmEvent) (d : Option Delivery) : State :=
  { s with
    fsm := r
    out := { s.out with fsmEvt := e, pkt := d }
    trace := { s.trace with
      fsmEvents := s.trace.fsmEvents ++ [e]
      deliveries := s.trace.deliveries ++ d.toList } }

/-- The effect of a symbol transaction on everything but the FSM: the counters, the bit and the event
on the ports and in the record (10_state.md R33, R35). -/
def afterSymbol (s : State) (hc lc : Nat) (b : Option Bit) (e : PtdEvent) : State :=
  { s with
    ptd := { hc := hc, lc := lc }
    out := { s.out with bit := b, ptdEvt := e }
    trace := { s.trace with
      bits := s.trace.bits ++ b.toList
      ptdEvents := s.trace.ptdEvents ++ [e]
      consumed := s.trace.consumed + 1 } }

/-! ## The classification in the rules' other forms -/

/-- SampleDuration in nanoseconds, exact (00_scope.md R17, 40_pulse_timing.md R86). -/
def sampleDuration (rate : Nat) : Rat := 1000000000 / (rate : Rat)

/-- The classification by exact times (40_pulse_timing.md R86). -/
def classifyByTime (rate h l : Nat) : DecodedBit :=
  let highTime : Rat := h * sampleDuration rate
  let lowTime : Rat := l * sampleDuration rate
  let period := highTime + lowTime
  let diff := |highTime - lowTime|
  if 600000 ≤ period ∧ period ≤ 1000000 ∧ diff ≤ 250000 then .bit0
  else if 1000000 ≤ period ∧ period ≤ 1425000 ∧ diff ≤ 356000 then .bit1
  else if 300000 ≤ highTime ∧ highTime ≤ 500000 ∧ 300000 ≤ lowTime then .eot
  else .invalid

/-- `cdiv(a)`, the least sample count that lasts a nanoseconds (40_pulse_timing.md R91). -/
def cdiv (rate a : Nat) : Nat := ⌈((a * rate : Nat) : Rat) / 1000000000⌉₊

/-- `fdiv(a)`, the greatest sample count that lasts at most a nanoseconds (40_pulse_timing.md R91). -/
def fdiv (rate a : Nat) : Nat := a * rate / 1000000000

/-- The classification by sample counts (40_pulse_timing.md R91). -/
def classifyByCount (rate h l : Nat) : DecodedBit :=
  let d := (max h l) - (min h l)
  if cdiv rate 600000 ≤ h + l ∧ h + l ≤ fdiv rate 1000000 ∧ d ≤ fdiv rate 250000 then .bit0
  else if cdiv rate 1000000 ≤ h + l ∧ h + l ≤ fdiv rate 1425000 ∧ d ≤ fdiv rate 356000 then .bit1
  else if cdiv rate 300000 ≤ h ∧ h ≤ fdiv rate 500000 ∧ cdiv rate 300000 ≤ l then .eot
  else .invalid

/-! ## The frame format on the bit stream -/

/-- Bit i of a byte, i counted from the least significant (00_scope.md R12). -/
def bitOf (v : Byte) (i : Nat) : Bit := BitVec.ofBool (v.getLsbD i)

/-- The eight data bits of a byte in arrival order, MSB first (20_memory.md R47). -/
def byteBits (v : Byte) : List Bit :=
  [bitOf v 7, bitOf v 6, bitOf v 5, bitOf v 4, bitOf v 3, bitOf v 2, bitOf v 1, bitOf v 0]

/-- The sum mod 2 of some bits. -/
def sumMod2 (bits : List Bit) : Bit := bits.foldl (fun a b => a + b) 0

/-- The nine-bit group of a byte: data, then the bit that makes the group even (30_encoding.md R68). -/
def byteGroup (v : Byte) : List Bit := byteBits v ++ [sumMod2 (byteBits v)]

/-- The preamble: zeros ended by a 1 (30_encoding.md R67). -/
def preamble (zeros : Nat) : List Bit := List.replicate zeros 0 ++ [1]

/-- A frame: the preamble, the payload's groups and the checksum byte's group (30_encoding.md R67 to R69). -/
def frameBits (zeros : Nat) (payload : List Byte) (check : Byte) : List Bit :=
  preamble zeros ++ (payload ++ [check]).flatMap byteGroup

/-- Bits with the time input at each: bit number k of the stream arrives at `time k`. -/
def timed (time : Nat → Nat) (k : Nat) (bits : List Bit) : List (Bit × Nat) :=
  match bits with
  | [] => []
  | b :: rest => (b, time k) :: timed time (k + 1) rest

/-- The payload's length fits its command byte: 4 bytes with bit 5 of byte 3 clear, 5 with it set
(30_encoding.md R69, 41_frame_machine.md R120). -/
def FitsCommand (payload : List Byte) : Prop :=
  (payload.length = 4 ∧ (payload.getD 3 0).getLsbD 5 = false)
    ∨ (payload.length = 5 ∧ (payload.getD 3 0).getLsbD 5 = true)

/-! ## Frame machines that no output tells apart -/

/-- Two FSMs alike but for what the current frame has not written: in RESET everything, in SYNC `pkt` and
`ts`, in HEAD and TAIL the bytes above `nbytes` and the old bits of the byte in progress, which the
data bits so far have moved up by `nbits` places (20_memory.md R60, 10_state.md R44). -/
def SameFrame (a b : FsmRegs) : Prop :=
  a.st = b.st ∧ (a.st = .sync → a.nbits = b.nbits)
    ∧ (a.st = .head ∨ a.st = .tail →
        a.nbits = b.nbits ∧ a.nbytes = b.nbytes ∧ a.parity = b.parity ∧ a.lastByte = b.lastByte
          ∧ a.ts = b.ts ∧ (∀ i, i < a.nbytes.toNat → a.pkt.read i = b.pkt.read i)
          ∧ (a.pkt.read a.nbytes.toNat).toNat % 2 ^ a.nbits.toNat
              = (b.pkt.read b.nbytes.toNat).toNat % 2 ^ b.nbits.toNat)

end Sys2Proof.Machine
end

