-- ==== Sys2Proof/Certificates/Slice0/Obligations.lean ====
section
/-! DEFINITION. The statements for the provers. Each docstring names the rules of spec/ it rests on. -/

open Sys2Proof Sys2Proof.Machine

/-! ## Encodings (30_encoding.md) -/

/-- R62, R63, R65, R66: the decoder reads every operation back from its own word, for every instance and with
every operand its ports can carry. -/
def Obligations.EncodedInstructionDecodesToItself : Prop :=
  ∀ (p : Params) (i : Instr), i.WellFormed p = true → decode p (encode i) = .ok i

/-- R62, R63, R65, R66: a word that decodes is the word of the operation it gives; the operation fits the
instance's ports and the word fits the operation's row of the table. -/
def Obligations.DecodedWordEncodesToItself : Prop :=
  ∀ (p : Params) (w : PortWord) (i : Instr), decode p w = .ok i →
    encode i = w ∧ i.WellFormed p = true ∧ i.row.fits w = true

/-- R62: each of the 256 symbol values fits exactly one row of the table, and decodes to that row's operation. -/
def Obligations.EverySymbolSelectsExactlyOneRow : Prop :=
  ∀ (p : Params) (s : Byte), ∃ r ∈ symbolRows,
    r.fits ⟨.sym8, s.toNat⟩ = true ∧ (∀ q ∈ symbolRows, q.fits ⟨.sym8, s.toNat⟩ = true → q = r)
      ∧ ∃ i, decode p ⟨.sym8, s.toNat⟩ = .ok i ∧ i.row = r

/-- R62, R63, R65, R66: some words written out from the tables. -/
def Obligations.TableWordsDecode : Prop :=
  ∀ p : Params, p.noutW = 32 →
    decode p ⟨.sym8, 0x00⟩ = .ok .sym0 ∧ decode p ⟨.sym8, 0x01⟩ = .ok .sym1
      ∧ decode p ⟨.sym8, 0x02⟩ = .ok (.symInvalid02 0) ∧ decode p ⟨.sym8, 0x07⟩ = .ok (.symInvalid04 3)
      ∧ decode p ⟨.sym8, 0xFF⟩ = .ok (.symInvalid80 0x7F)
      ∧ decode p ⟨.bit1, 0⟩ = .ok .fbit0 ∧ decode p ⟨.bit1, 1⟩ = .ok .fbit1
      ∧ decode p ⟨.rateq, 100⟩ = .ok (.rateQuery 100) ∧ decode p ⟨.rst1, 1⟩ = .ok .reset

/-- R107: as FSM input, exactly the values outside 0 and 1 are refused. -/
def Obligations.OnlyBitsEnterTheFrameMachine : Prop :=
  ∀ (p : Params) (w : Nat), decode p ⟨.bit1, w⟩ = .error .notABit ↔ ¬ (w = 0 ∨ w = 1)

/-! ## The pulse-timing decoder (40_pulse_timing.md) -/

/-- R83: with no low run begun, a high symbol counts on the high run, up to CNT_MAX; nothing else changes. -/
def Obligations.HighSymbolExtendsTheHighRun : Prop :=
  ∀ s : State, s.ptd.lc = 0 →
    exec .sym1 s = .next (afterSymbol s (min (s.ptd.hc + 1) (2 ^ s.params.cntW - 1)) 0 none .noEvent)

/-- R84: a low symbol counts once a high run has begun, up to CNT_MAX; nothing else changes. -/
def Obligations.LowSymbolCountsAfterAHighRun : Prop :=
  ∀ s : State,
    exec .sym0 s = .next (afterSymbol s s.ptd.hc
      (if s.ptd.hc > 0 then min (s.ptd.lc + 1) (2 ^ s.params.cntW - 1) else s.ptd.lc) none .noEvent)

/-- R85: every symbol outside 0 and 1 is reported and consumed, and changes no register. -/
def Obligations.InvalidSymbolsChangeNoRegister : Prop :=
  ∀ s : State,
    (∀ low, exec (.symInvalid02 low) s = .next (afterSymbol s s.ptd.hc s.ptd.lc none .invalidSymbol))
      ∧ (∀ low, exec (.symInvalid04 low) s = .next (afterSymbol s s.ptd.hc s.ptd.lc none .invalidSymbol))
      ∧ (∀ low, exec (.symInvalid08 low) s = .next (afterSymbol s s.ptd.hc s.ptd.lc none .invalidSymbol))
      ∧ (∀ low, exec (.symInvalid10 low) s = .next (afterSymbol s s.ptd.hc s.ptd.lc none .invalidSymbol))
      ∧ (∀ low, exec (.symInvalid20 low) s = .next (afterSymbol s s.ptd.hc s.ptd.lc none .invalidSymbol))
      ∧ (∀ low, exec (.symInvalid40 low) s = .next (afterSymbol s s.ptd.hc s.ptd.lc none .invalidSymbol))
      ∧ (∀ low, exec (.symInvalid80 low) s = .next (afterSymbol s s.ptd.hc s.ptd.lc none .invalidSymbol))

/-- R82, R86, R40: a high symbol after a low run classifies the period by its exact times, emits the bit of a Bit0 or
Bit1, reports the event, and starts the next period with itself. Composed, the emitted bit is then the FSM's
transaction too; a period that is neither Bit0 nor Bit1 leaves the FSM and its ports alone (R133, R139). -/
def Obligations.CompletedPeriodIsClassified : Prop :=
  ∀ s : State, 1 ≤ s.params.sampleRateHz → 0 < s.ptd.lc →
    (s.params.composed = false → exec .sym1 s = .next
      (match classifyByTime s.params.sampleRateHz s.ptd.hc s.ptd.lc with
        | .bit0 => afterSymbol s 1 0 (some 0) .bit0
        | .bit1 => afterSymbol s 1 0 (some 1) .bit1
        | .eot => afterSymbol s 1 0 none .eot
        | .invalid => afterSymbol s 1 0 none .invalidTiming))
    ∧ (s.params.composed = true → exec .sym1 s =
      (match classifyByTime s.params.sampleRateHz s.ptd.hc s.ptd.lc with
        | .bit0 => exec .fbit0 (afterSymbol s 1 0 (some 0) .bit0)
        | .bit1 => exec .fbit1 (afterSymbol s 1 0 (some 1) .bit1)
        | .eot => .next (afterSymbol s 1 0 none .eot)
        | .invalid => .next (afterSymbol s 1 0 none .invalidTiming)))

/-- R87, R88, R89: each case's integer form holds exactly when its exact times are in the windows, so the classification in
integers is the one of R86. -/
def Obligations.IntegerClassificationIsExact : Prop :=
  ∀ rate h l : Nat, 1 ≤ rate →
    let highTime : Rat := h * sampleDuration rate
    let lowTime : Rat := l * sampleDuration rate
    (600000 * rate ≤ (h + l) * 1000000000 ∧ (h + l) * 1000000000 ≤ 1000000 * rate
        ∧ |(h : Int) - l| * 1000000000 ≤ 250000 * rate
      ↔ 600000 ≤ highTime + lowTime ∧ highTime + lowTime ≤ 1000000 ∧ |highTime - lowTime| ≤ 250000)
    ∧ (1000000 * rate ≤ (h + l) * 1000000000 ∧ (h + l) * 1000000000 ≤ 1425000 * rate
        ∧ |(h : Int) - l| * 1000000000 ≤ 356000 * rate
      ↔ 1000000 ≤ highTime + lowTime ∧ highTime + lowTime ≤ 1425000 ∧ |highTime - lowTime| ≤ 356000)
    ∧ (300000 * rate ≤ h * 1000000000 ∧ h * 1000000000 ≤ 500000 * rate ∧ 300000 * rate ≤ l * 1000000000
      ↔ 300000 ≤ highTime ∧ highTime ≤ 500000 ∧ 300000 ≤ lowTime)
    ∧ classify rate h l = classifyByTime rate h l

/-- R91: comparing sample counts with the rounded bounds classifies as the exact times do. -/
def Obligations.SampleCountsClassifyAlike : Prop :=
  ∀ rate h l : Nat, 1 ≤ rate → classifyByCount rate h l = classifyByTime rate h l

/-- R92: a saturated counter never changes a classification, in any instance R9 admits. -/
def Obligations.SaturationNeverChangesAClassification : Prop :=
  ∀ (p : Params) (h l : Nat), p.Legal →
    classifyByTime p.sampleRateHz (min h p.cntMax) (min l p.cntMax) = classifyByTime p.sampleRateHz h l

/-- R104 (property P1, corrected): wherever a high run stands, with no low run begun, `more` further high symbols and l low
ones leave one pending period however long they are, and the high symbol after them yields what the exact times of
the run's true length and of l say. The run's c high samples so far are held saturated or not; `hc = 0` is the PTD
after reset, `hc = 1` the start of every later period. -/
def Obligations.PulseYieldsItsClassification : Prop :=
  ∀ (p : Params) (r : PtdRegs) (c more l cap : Nat), p.Legal → r.lc = 0 → min r.hc p.cntMax = min c p.cntMax →
    1 ≤ c + more → 1 ≤ l → 1 ≤ cap →
    ∃ r' : PtdRegs,
      consumeChunk p r (List.replicate more 1 ++ List.replicate l 0) cap = ⟨more + l, [], r'⟩
        ∧ (ptdTransaction p r' 1).regs = ⟨1, 0⟩
        ∧ ((ptdTransaction p r' 1).bit, (ptdTransaction p r' 1).event) =
          (match classifyByTime p.sampleRateHz (c + more) l with
            | .bit0 => (some 0, .bit0)
            | .bit1 => (some 1, .bit1)
            | .eot => (none, .eot)
            | .invalid => (none, .invalidTiming))

/-- R103: from reset, every symbol before the first high symbol changes nothing, and that symbol begins the first high
run. -/
def Obligations.NothingCountsBeforeTheFirstHighSymbol : Prop :=
  ∀ (p : Params) (syms : List Byte) (cap : Nat), 1 ≤ p.cntW → 1 ≤ cap → (∀ s ∈ syms, s ≠ 1) →
    consumeChunk p ⟨0, 0⟩ syms cap = ⟨syms.length, [], ⟨0, 0⟩⟩
      ∧ ptdTransaction p ⟨0, 0⟩ 1 = ⟨⟨1, 0⟩, none, .noEvent⟩

/-- R138: an invalid symbol does not break a run. A chunk with its invalid symbols taken out gives the same bits and leaves
the same counters; the invalid symbols are consumed too. -/
def Obligations.InvalidSymbolsDoNotBreakARun : Prop :=
  ∀ (p : Params) (r : PtdRegs) (syms : List Byte) (cap : Nat), syms.length ≤ cap →
    let valid := syms.filter (fun s => s = 0 ∨ s = 1)
    consumeChunk p r syms cap
      = ⟨syms.length, (consumeChunk p r valid cap).bits, (consumeChunk p r valid cap).regs⟩

/-- R93, R95: a chunk call consumes at most its symbols, emits at most its capacity, and leaves symbols only when the
capacity is used up; with no capacity it consumes nothing. -/
def Obligations.ChunkCallKeepsItsAccounts : Prop :=
  ∀ (p : Params) (r : PtdRegs) (syms : List Byte) (cap : Nat),
    (consumeChunk p r syms cap).consumed ≤ syms.length
      ∧ (consumeChunk p r syms cap).bits.length ≤ cap
      ∧ ((consumeChunk p r syms cap).consumed < syms.length → (consumeChunk p r syms cap).bits.length = cap)
      ∧ consumeChunk p r syms 0 = ⟨0, [], r⟩

/-- R94 (property P2): a split input gives what one call gives, and a call stopped by its capacity is resumed
at the first unconsumed symbol without loss. -/
def Obligations.ChunkBoundariesAreTransparent : Prop :=
  ∀ (p : Params) (r : PtdRegs) (xs ys : List Byte) (cap more : Nat),
    ((consumeChunk p r xs cap).consumed = xs.length →
      consumeChunk p r (xs ++ ys) cap =
        (let a := consumeChunk p r xs cap
         let b := consumeChunk p a.regs ys (cap - a.bits.length)
         ⟨a.consumed + b.consumed, a.bits ++ b.bits, b.regs⟩))
    ∧ consumeChunk p r xs (cap + more) =
        (let a := consumeChunk p r xs cap
         let b := consumeChunk p a.regs (xs.drop a.consumed) more
         ⟨a.consumed + b.consumed, a.bits ++ b.bits, b.regs⟩)

/-- R93, R102: a chunk call of separate units is the run of the symbol transactions it consumes. -/
def Obligations.ChunkCallIsARunOfTransactions : Prop :=
  ∀ (s : State) (syms : List Byte) (cap : Nat), s.params.composed = false →
    ∃ t, runSymbols (syms.take (consumeChunk s.params s.ptd syms cap).consumed) s = .next t
      ∧ t.ptd = (consumeChunk s.params s.ptd syms cap).regs
      ∧ t.trace.bits = s.trace.bits ++ (consumeChunk s.params s.ptd syms cap).bits
      ∧ t.trace.consumed = s.trace.consumed + (consumeChunk s.params s.ptd syms cap).consumed
      ∧ t.fsm = s.fsm ∧ t.trace.deliveries = s.trace.deliveries

/-! ## The frame state machine (41_frame_machine.md) -/

/-- R111, R112: a bit that arrives in RESET first clears the counters, then is a SYNC bit, in one transaction. -/
def Obligations.ResetCascadesIntoSync : Prop :=
  ∀ (b : Bit) (s : State), s.fsm.st = .reset →
    exec (bitInstr b) s =
      exec (bitInstr b) { s with fsm :=
        { s.fsm with nbits := 0, nbytes := 0, parity := 0, lastByte := 0, st := .sync } }

/-- R113: a 0-bit in SYNC is counted, up to 15; nothing else changes. -/
def Obligations.ZeroInSyncIsCounted : Prop :=
  ∀ s : State, s.fsm.st = .sync →
    exec .fbit0 s =
      .next (afterBit s { s.fsm with nbits := BitVec.ofNat 4 (min (s.fsm.nbits.toNat + 1) 15) } .noEvent none)

/-- R114: a 1-bit in SYNC after twelve zeros or more captures the time and enters HEAD; nothing else changes. -/
def Obligations.TwelveZerosSynchronize : Prop :=
  ∀ (s : State) (now : Nat), s.fsm.st = .sync → 12 ≤ s.fsm.nbits.toNat → s.timeIn = some now →
    exec .fbit1 s = .next (afterBit s { s.fsm with ts := now, nbits := 0, st := .head } .syncOk none)

/-- R170 with 93_implementation_defined.md section 2 (entry 11): where the time is not stable at the sync edge, the sync
succeeds with some time the register can hold. -/
def Obligations.UnstableTimeSynchronizes : Prop :=
  ∀ s : State, s.fsm.st = .sync → 12 ≤ s.fsm.nbits.toNat → s.timeIn = none →
    ∃ v, v < 2 ^ s.params.tsW
      ∧ exec .fbit1 s = .next (afterBit s { s.fsm with ts := v, nbits := 0, st := .head } .syncOk none)

/-- R115: a 1-bit in SYNC after fewer than twelve zeros aborts; only `st` changes. -/
def Obligations.FewZerosAbortSync : Prop :=
  ∀ s : State, s.fsm.st = .sync → s.fsm.nbits.toNat < 12 →
    exec .fbit1 s = .next (afterBit s { s.fsm with st := .reset } .syncFail none)

/-- R109 in HEAD (R118) and TAIL (R122): a data bit enters the parity sum and the byte in progress, MSB
first; of the buffer only `pkt[nbytes]` is written. -/
def Obligations.DataBitShiftsIntoItsByte : Prop :=
  ∀ (b : Bit) (s : State), s.fsm.nbits.toNat < 8 →
    (s.fsm.st = .head ∧ s.fsm.nbytes.toNat ≤ 3)
      ∨ (s.fsm.st = .tail ∧ s.fsm.nbytes.toNat < s.fsm.lastByte.toNat ∧ s.fsm.lastByte.toNat ≤ 6) →
    exec (bitInstr b) s = .next (afterBit s
      { s.fsm with
        parity := BitVec.ofNat 1 ((s.fsm.parity.toNat + b.toNat) % 2)
        pkt := s.fsm.pkt.write s.fsm.nbytes.toNat
          (BitVec.ofNat 8 (((s.fsm.pkt.read s.fsm.nbytes.toNat).toNat * 2 + b.toNat) % 256))
        nbits := BitVec.ofNat 4 (s.fsm.nbits.toNat + 1) } .noEvent none)

/-- R110 in HEAD (R118) and TAIL (R122): the ninth bit of an even group closes the byte, before the last byte
of its part of the frame; `pkt` is not written. -/
def Obligations.EvenGroupClosesItsByte : Prop :=
  ∀ (b : Bit) (s : State), s.fsm.nbits.toNat = 8 → (s.fsm.parity.toNat + b.toNat) % 2 = 0 →
    (s.fsm.st = .head ∧ s.fsm.nbytes.toNat < 3)
      ∨ (s.fsm.st = .tail ∧ s.fsm.nbytes.toNat + 1 < s.fsm.lastByte.toNat) →
    exec (bitInstr b) s = .next (afterBit s
      { s.fsm with nbits := 0, parity := 0, nbytes := BitVec.ofNat 3 (s.fsm.nbytes.toNat + 1) } .noEvent none)

/-- R117, R121: the ninth bit of an odd group moves HEAD and TAIL to RESET with a parity error; only `st`
changes, whatever the other registers hold. -/
def Obligations.OddGroupAbortsTheFrame : Prop :=
  ∀ (b : Bit) (s : State), s.fsm.st = .head ∨ s.fsm.st = .tail →
    s.fsm.nbits.toNat = 8 → (s.fsm.parity.toNat + b.toNat) % 2 = 1 →
    exec (bitInstr b) s = .next (afterBit s { s.fsm with st := .reset } .parityError none)

/-- R119, R120: the command byte's parity bit decides the frame length by bit 5 of `pkt[3]` and enters TAIL. -/
def Obligations.CommandByteDecidesTheLength : Prop :=
  ∀ (b : Bit) (s : State), s.fsm.st = .head → s.fsm.nbits.toNat = 8 →
    (s.fsm.parity.toNat + b.toNat) % 2 = 0 → s.fsm.nbytes.toNat = 3 →
    exec (bitInstr b) s = .next (afterBit s
      { s.fsm with
        nbits := 0, parity := 0, nbytes := 4, st := .tail
        lastByte := if (s.fsm.pkt.read 3).toNat / 2 ^ 5 % 2 = 1 then 6 else 5 } .noEvent none)

/-- R123 to R127: the last parity bit validates the frame. With n payload bytes the received byte is `pkt[n]`; it is
accepted when it is within 1 of the sum, as plain integers, and the payload is then delivered with `ts`. -/
def Obligations.CompleteFrameIsValidated : Prop :=
  ∀ (b : Bit) (s : State) (n : Nat), s.fsm.st = .tail → s.fsm.nbits.toNat = 8 →
    (s.fsm.parity.toNat + b.toNat) % 2 = 0 → n = 4 ∨ n = 5 → s.fsm.nbytes.toNat = n →
    s.fsm.lastByte.toNat = n + 1 →
    exec (bitInstr b) s = .next
      (let bytes := (List.range n).map s.fsm.pkt.read
       let cs : Nat := (6 + (bytes.map BitVec.toNat).sum) % 256
       let after := { s.fsm with nbits := 0, parity := 0, nbytes := BitVec.ofNat 3 n, st := .reset }
       if |((s.fsm.pkt.read n).toNat : Int) - (cs : Int)| < 2 then
         afterBit s after .delivered (some ⟨bytes, s.fsm.ts⟩)
       else afterBit s after .checksumFail none)

/-- R132: the complete transition table of `st` with its events. Every bit in every legal state has its next state. -/
def Obligations.TransitionTableIsTotal : Prop :=
  ∀ (b : Bit) (s : State), s.fsm.Inv s.params →
    ∃ t, exec (bitInstr b) s = .next t ∧ (t.fsm.st, t.out.fsmEvt) =
      (match s.fsm.st with
        | .reset => if b = 0 then (FsmState.sync, FsmEvent.noEvent) else (.reset, .syncFail)
        | .sync =>
          if b = 0 then (.sync, .noEvent)
          else if 12 ≤ s.fsm.nbits.toNat then (.head, .syncOk) else (.reset, .syncFail)
        | .head =>
          if s.fsm.nbits.toNat < 8 then (.head, .noEvent)
          else if (s.fsm.parity.toNat + b.toNat) % 2 = 1 then (.reset, .parityError)
          else if s.fsm.nbytes.toNat + 1 ≤ 3 then (.head, .noEvent) else (.tail, .noEvent)
        | .tail =>
          if s.fsm.nbits.toNat < 8 then (.tail, .noEvent)
          else if (s.fsm.parity.toNat + b.toNat) % 2 = 1 then (.reset, .parityError)
          else if s.fsm.nbytes.toNat + 1 < s.fsm.lastByte.toNat then (.tail, .noEvent)
          else if |((s.fsm.pkt.read s.fsm.nbytes.toNat).toNat : Int)
              - ((6 + (((List.range s.fsm.nbytes.toNat).map s.fsm.pkt.read).map BitVec.toNat).sum) % 256 : Nat)| < 2
            then (.reset, .delivered)
          else (.reset, .checksumFail))

/-- R51, R129, R150: what FBIT0 and FBIT1 leave unchanged. The byte stored to is `pkt[nbytes]`, and only by a data
bit; `ts` changes only at a sync success; the PTD, its ports and its record never. From the registers the
invariant admits. -/
def Obligations.BitTransactionFrame : Prop :=
  ∀ (b : Bit) (s t : State), s.fsm.Inv s.params → exec (bitInstr b) s = .next t →
    t.params = s.params ∧ t.ptd = s.ptd ∧ t.timeIn = s.timeIn ∧ t.stimulus = s.stimulus ∧ t.draws = s.draws
      ∧ t.out.symReady = s.out.symReady ∧ t.out.bit = s.out.bit ∧ t.out.ptdEvt = s.out.ptdEvt
      ∧ t.out.rateNin = s.out.rateNin ∧ t.trace.bits = s.trace.bits
      ∧ t.trace.ptdEvents = s.trace.ptdEvents ∧ t.trace.consumed = s.trace.consumed
      ∧ (∀ a, ((s.fsm.st = .head ∨ s.fsm.st = .tail) ∧ s.fsm.nbits.toNat ≠ 8 → a ≠ s.fsm.nbytes.toNat) →
          t.fsm.pkt.read a = s.fsm.pkt.read a)
      ∧ (¬ (s.fsm.st = .sync ∧ b = 1 ∧ 12 ≤ s.fsm.nbits.toNat) → t.fsm.ts = s.fsm.ts)
      ∧ (s.fsm.st = .sync ∨ s.fsm.st = .tail → t.fsm.lastByte = s.fsm.lastByte)
      ∧ (s.fsm.st = .sync ∨ s.fsm.nbits.toNat ≠ 8 ∧ s.fsm.st ≠ .reset → t.fsm.nbytes = s.fsm.nbytes)

/-- R47, R60: eight data bits fill `pkt[nbytes]` with the byte they spell, MSB first, whatever it held before,
and change no other byte. -/
def Obligations.EightDataBitsReplaceTheByte : Prop :=
  ∀ (r : FsmRegs) (v : Byte) (time : Nat → Nat) (k : Nat), r.pkt.Wf → r.nbits = 0 → r.parity = 0 →
    (r.st = .head ∧ r.nbytes.toNat ≤ 3)
      ∨ (r.st = .tail ∧ r.nbytes.toNat < r.lastByte.toNat ∧ r.lastByte.toNat ≤ 6) →
    ∃ r', consumeBits r (timed time k (byteBits v)) = some ⟨r', List.replicate 8 .noEvent, []⟩
      ∧ r'.pkt.read r.nbytes.toNat = v ∧ (∀ a, a ≠ r.nbytes.toNat → r'.pkt.read a = r.pkt.read a)
      ∧ r'.nbits = 8 ∧ r'.parity = sumMod2 (byteBits v)
      ∧ r'.st = r.st ∧ r'.nbytes = r.nbytes ∧ r'.lastByte = r.lastByte ∧ r'.ts = r.ts

/-- R141 (property P4): nine bits with an odd sum, from a group's start in HEAD or TAIL, end in RESET with a parity
error at the ninth bit and without a delivery. -/
def Obligations.OddGroupDropsTheFrame : Prop :=
  ∀ (p : Params) (r : FsmRegs) (group : List Bit) (time : Nat → Nat) (k : Nat), r.Inv p →
    r.st = .head ∨ r.st = .tail → r.nbits = 0 → r.parity = 0 → group.length = 9 → sumMod2 group = 1 →
    ∃ r', consumeBits r (timed time k group) = some ⟨r', List.replicate 8 .noEvent ++ [.parityError], []⟩
      ∧ r'.st = .reset

/-- R116 (property P3): from RESET, fewer than twelve zeros and a 1 never lead to HEAD: every bit but the last
is absorbed, the last fails the sync. -/
def Obligations.ShortPreambleNeverSynchronizes : Prop :=
  ∀ (r : FsmRegs) (zeros : Nat) (time : Nat → Nat) (k : Nat), r.st = .reset → zeros < 12 →
    ∃ r', consumeBits r (timed time k (preamble zeros))
        = some ⟨r', List.replicate zeros .noEvent ++ [.syncFail], []⟩ ∧ r'.st = .reset

/-- R67 to R69, R114, R123 to R128, R131: from RESET, a frame of a preamble of at least twelve zeros, a payload of the
length its command byte says and a checksum byte, all with even parity, ends in RESET after exactly
9 × last_byte bits from the sync. It is delivered once, whole, with the time of its sync bit, when the
checksum byte is within 1 of the sum, and is not delivered otherwise. -/
def Obligations.FrameIsDeliveredWhenItsChecksumAgrees : Prop :=
  ∀ (r : FsmRegs) (zeros : Nat) (payload : List Byte) (check : Byte) (time : Nat → Nat),
    r.pkt.Wf → r.st = .reset → 12 ≤ zeros → FitsCommand payload →
    ∃ r', r'.st = .reset
      ∧ consumeBits r (timed time 0 (frameBits zeros payload check)) = some
        (if |(check.toNat : Int) - ((6 + (payload.map BitVec.toNat).sum) % 256 : Nat)| < 2 then
          ⟨r', List.replicate zeros .noEvent ++ [.syncOk]
            ++ List.replicate (9 * (payload.length + 1) - 1) .noEvent ++ [.delivered], [⟨payload, time zeros⟩]⟩
        else
          ⟨r', List.replicate zeros .noEvent ++ [.syncOk]
            ++ List.replicate (9 * (payload.length + 1) - 1) .noEvent ++ [.checksumFail], []⟩)

/-- R135: a call of the FSM on a list of bits reports one event a bit, and a list split into two calls gives the
same deliveries, events and end state as one. -/
def Obligations.BitListsSplitWithoutLoss : Prop :=
  ∀ (r : FsmRegs) (xs ys : List (Bit × Nat)),
    (∀ c, consumeBits r xs = some c → c.events.length = xs.length)
      ∧ consumeBits r (xs ++ ys) =
        (match consumeBits r xs with
          | none => none
          | some a =>
            match consumeBits a.regs ys with
            | none => none
            | some b => some ⟨b.regs, a.events ++ b.events, a.deliveries ++ b.deliveries⟩)

/-- R106, R135: the call on a list of bits is the run of their operations FBIT0 and FBIT1, each with its time on the input. It
ends in the call's registers, adds the call's events and deliveries, and leaves the PTD and its record alone; it
stops with the fault of entry 10 exactly where the call has no answer. -/
def Obligations.BitCallIsARunOfTransactions : Prop :=
  ∀ (s : State) (bits : List (Bit × Nat)),
    (∀ c, consumeBits s.fsm bits = some c →
      ∃ t, runBits bits s = .next t ∧ t.fsm = c.regs
        ∧ t.trace.fsmEvents = s.trace.fsmEvents ++ c.events ∧ t.trace.deliveries = s.trace.deliveries ++ c.deliveries
        ∧ t.ptd = s.ptd ∧ t.params = s.params ∧ t.trace.bits = s.trace.bits
        ∧ t.trace.ptdEvents = s.trace.ptdEvents ∧ t.trace.consumed = s.trace.consumed)
    ∧ (consumeBits s.fsm bits = none → runBits bits s = .fault .packetIndex)

/-- R60, R44: no output depends on what `pkt` and `ts` held before the current frame. Two FSMs alike but for
that make the same events and deliveries and stay so; two in RESET agree on every list of bits. -/
def Obligations.StaleBytesReachNoOutput : Prop :=
  (∀ (p : Params) (a b : FsmRegs) (bit : Bit) (now : Nat), a.Inv p → b.Inv p → SameFrame a b →
    ∃ ta tb, fsmTransaction bit now a = some ta ∧ fsmTransaction bit now b = some tb
      ∧ ta.event = tb.event ∧ ta.delivery = tb.delivery ∧ SameFrame ta.regs tb.regs)
  ∧ (∀ (p : Params) (a b : FsmRegs) (bits : List (Bit × Nat)), a.Inv p → b.Inv p → a.st = .reset → b.st = .reset →
      (∀ c ∈ bits, c.2 < 2 ^ p.tsW) →
      ∃ ca cb, consumeBits a bits = some ca ∧ consumeBits b bits = some cb
        ∧ ca.events = cb.events ∧ ca.deliveries = cb.deliveries)

/-! ## The rate query and reset -/

/-- R99, R100: the rate query answers `n_out` times the exact ceiling of 1425000 R / 10^9, and changes nothing but its
own port. -/
def Obligations.RateQueryAnswersTheProduct : Prop :=
  ∀ (s : State) (nOut : Nat),
    exec (.rateQuery nOut) s = .next { s with out := { s.out with
      rateNin := some (nOut * ⌈((1425000 * s.params.sampleRateHz : Nat) : Rat) / 1000000000⌉₊) } }

/-- R11: the rate query's answer fits NOUT_W + K_W bits, K_W the least width that holds RATE_K. -/
def Obligations.RateAnswerFitsItsPort : Prop :=
  ∀ (p : Params) (nOut : Nat), p.Legal → nOut < 2 ^ p.noutW →
    nOut * rateK p < 2 ^ (p.noutW + rateKWidth p)
      ∧ 2 ^ (rateKWidth p - 1) ≤ rateK p ∧ rateK p < 2 ^ rateKWidth p

/-- R153 to R156: RESET gives every register its reset value, discards the period and the frame in progress without an
event or a delivery, quiets the ports but the rate answer, and leaves `pkt` and `ts` at some value they can hold. The record stays as
it is (entry 14, the model's). -/
def Obligations.ResetGivesTheResetValues : Prop :=
  ∀ s : State, ∃ t, exec .reset s = .next t
    ∧ t.ptd = ⟨0, 0⟩ ∧ t.fsm.st = .reset ∧ t.fsm.nbits = 0 ∧ t.fsm.nbytes = 0 ∧ t.fsm.parity = 0 ∧ t.fsm.lastByte = 0
    ∧ t.fsm.pkt.Wf ∧ t.fsm.ts < 2 ^ s.params.tsW
    ∧ t.out = { symReady := false, bit := none, ptdEvt := .noEvent, fsmEvt := .noEvent, pkt := none,
                rateNin := s.out.rateNin }
    ∧ t.params = s.params ∧ t.timeIn = s.timeIn ∧ t.stimulus = s.stimulus ∧ t.trace = s.trace

/-! ## The whole machine -/

/-- R23, R130, R21 to R31: the invariant is kept by every step from every state that meets it. -/
def Obligations.InvariantIsKeptByEveryStep : Prop :=
  ∀ s t : State, s.Inv → step s = .next t → t.Inv

/-- The invariant holds after reset, and the registers and ports that R154, R155 and R156 give a value have it. The rate, the
widths, `pkt`, `ts` and the time input are the model's choice where the spec states none (entries 2, 3, 7, 8, 24). -/
def Obligations.InvariantHoldsAfterReset : Prop :=
  State.reset.Inv
    ∧ State.reset.ptd.hc = 0 ∧ State.reset.ptd.lc = 0 ∧ State.reset.fsm.st = .reset ∧ State.reset.fsm.nbits = 0
    ∧ State.reset.fsm.nbytes = 0 ∧ State.reset.fsm.parity = 0 ∧ State.reset.fsm.lastByte = 0
    ∧ State.reset.bitValid = false ∧ State.reset.pktValid = false
    ∧ State.reset.out.ptdEvt.code = 0 ∧ State.reset.out.fsmEvt.code = 0

/-- R137: from every state that meets the invariant, whatever the host drives, the machine goes on. -/
def Obligations.NoInputStopsTheMachine : Prop :=
  ∀ s : State, s.Inv → ∃ t, step s = .next t

/-- R73, R75: no level of the ports is refused, in any state. -/
def Obligations.NoPinLevelIsRefused : Prop :=
  ∀ (s : State) (r : Refusal), step s ≠ .refused r

/-- R157 and 00_scope.md R7: no step changes the parameters. -/
def Obligations.ParametersNeverChange : Prop :=
  ∀ s t : State, step s = .next t → t.params = s.params

/-- R167: when the next edge presents one word that decodes, the step is the operation on the machine with the edge sampled;
where it presents more, the rest runs after it. What `sampled` adds is the model's edge (entries 5, 17, 21). -/
def Obligations.StepRunsTheDecodedOperation : Prop :=
  ∀ (s : State) (w : PortWord) (rest : List PortWord) (i : Instr),
    s.nextEdge.words s.params = w :: rest → decode s.params w = .ok i →
    let sampled : State := { s with
      stimulus := s.stimulus.tail
      timeIn := s.nextEdge.timeIn.map (· % 2 ^ s.params.tsW)
      out := { symReady := symReady s.params s.nextEdge, bit := none, ptdEvt := .noEvent, fsmEvt := .noEvent,
               pkt := none, rateNin := none }
      draws := s.draws + 1 }
    (rest = [] → step s = exec i sampled) ∧ (∀ t, exec i sampled = .next t → step s = runWords rest t)

/-- R32, R36, R40, R102, R153, R156: what an edge presents. A symbol needs `sym_valid`, no reset, and room for a bit (always
there when composed); a bit needs `fbit_valid` and no reset; a query needs only to be asked. Two clauses are the
model's and no rule's: the query is taken modulo 2 to NOUT_W (entry 17, DESIGN CHOICE), and a bit needs separate units,
the host's pins of that port being deaf in the composed block (entry 18, DEDUCED, unsafe). -/
def Obligations.EdgePresentsWhatItAccepts : Prop :=
  ∀ (p : Params) (e : Pins) (w : PortWord), w ∈ e.words p ↔
    (∃ n, e.rateNout = some n ∧ w = ⟨.rateq, n % 2 ^ p.noutW⟩)
      ∨ (e.rst = true ∧ w = ⟨.rst1, 1⟩)
      ∨ (e.rst = false ∧ e.symValid = true ∧ (p.composed = true ∨ e.bitReady = true)
          ∧ w = ⟨.sym8, e.symData.toNat⟩)
      ∨ (e.rst = false ∧ e.fbitValid = true ∧ p.composed = false ∧ w = ⟨.bit1, e.fbitData.toNat⟩)

/-- R153: on an edge with `rst = 1` only the reset happens, whatever the valid signals, and `sym_ready` is 0. -/
def Obligations.ResetEdgeTakesNoOtherTransaction : Prop :=
  ∀ (s : State) (e : Pins) (rest : List Pins), s.stimulus = e :: rest → e.rst = true → e.rateNout = none →
    ∃ t, step s = .next t ∧ exec .reset (s.sample e) = .next t ∧ t.trace = s.trace ∧ t.out.symReady = false
      ∧ t.stimulus = rest

/-- R152, R59: an edge that presents nothing holds every register, reports nothing and only uses itself up. -/
def Obligations.IdleEdgeHoldsTheState : Prop :=
  ∀ s : State, s.nextEdge.words s.params = [] →
    ∃ t, step s = .next t ∧ t.params = s.params ∧ t.ptd = s.ptd ∧ t.fsm = s.fsm ∧ t.trace = s.trace
      ∧ t.stimulus = s.stimulus.tail ∧ t.bitValid = false ∧ t.pktValid = false
      ∧ t.out.ptdEvt = .noEvent ∧ t.out.fsmEvt = .noEvent

/-- R102, R164: separate units, a symbol offered while `bit_ready` is 0 is not accepted: no register changes,
nothing is consumed, and `sym_ready` is 0. -/
def Obligations.SymbolWaitsForRoom : Prop :=
  ∀ (s : State) (e : Pins) (rest : List Pins), s.stimulus = e :: rest → s.params.composed = false →
    e.symValid = true → e.bitReady = false → e.rst = false → e.fbitValid = false → e.rateNout = none →
    ∃ t, step s = .next t ∧ t.ptd = s.ptd ∧ t.fsm = s.fsm ∧ t.trace = s.trace ∧ t.out.symReady = false

/-- R53, R150: separate units share nothing: a symbol and a bit give the same state in either order. -/
def Obligations.SeparateUnitsCommute : Prop :=
  ∀ (i : Instr) (b : Bit) (s t u : State), s.params.composed = false → (encode i).format = .sym8 →
    exec i s = .next t → exec (bitInstr b) s = .next u → exec (bitInstr b) t = exec i u

/-- R54, R40, R51: in the composed block the bit of an edge is what the PTD's transaction on its symbol emits (none under
reset), and the FSM makes its transaction on exactly that bit, at the edge's time: its registers, its events and
its deliveries are those of the call on that bit, or on none. Under reset the FSM's registers are the reset's.
Bits, events and deliveries are read in the model's record (entry 14). -/
def Obligations.ComposedBitsAllReachTheFrameMachine : Prop :=
  ∀ s t : State, s.params.composed = true → step s = .next t →
    t.out.bit = (if s.nextEdge.symValid = true ∧ s.nextEdge.rst = false then
        (ptdTransaction s.params s.ptd s.nextEdge.symData).bit else none)
      ∧ t.trace.bits = s.trace.bits ++ t.out.bit.toList
      ∧ ∃ run, consumeBits s.fsm (t.out.bit.toList.map fun b => (b, (s.sample s.nextEdge).now)) = some run
        ∧ t.trace.fsmEvents = s.trace.fsmEvents ++ run.events
        ∧ t.trace.deliveries = s.trace.deliveries ++ run.deliveries
        ∧ (s.nextEdge.rst = false → t.fsm = run.regs)

/-- R142, R95: a symbol transaction reports exactly one PTD event, consumes one symbol, emits at most one bit,
and makes at most one delivery, whatever the symbol. They are counted in the model's record (entry 14). -/
def Obligations.OneEventPerSymbol : Prop :=
  ∀ (i : Instr) (s t : State), (encode i).format = .sym8 → exec i s = .next t →
    t.trace.ptdEvents = s.trace.ptdEvents ++ [t.out.ptdEvt] ∧ t.trace.consumed = s.trace.consumed + 1
      ∧ t.trace.bits = s.trace.bits ++ t.out.bit.toList
      ∧ (t.trace.deliveries = s.trace.deliveries ∨ ∃ d, t.trace.deliveries = s.trace.deliveries ++ [d])

/-- R38, R72, R128: every delivery a step makes has four or five bytes and a time the port can carry. -/
def Obligations.DeliveriesHoldFourOrFiveBytes : Prop :=
  ∀ (s t : State) (d : Delivery), s.Inv → step s = .next t → t.out.pkt = some d →
    (d.bytes.length = 4 ∨ d.bytes.length = 5) ∧ d.time < 2 ^ s.params.tsW

/-- R38: the sink's wires carry the delivery: the strobe, the length, one byte a lane below it, and the time. -/
def Obligations.SinkPortCarriesTheDelivery : Prop :=
  ∀ (s : State) (d : Delivery), s.out.pkt = some d → d.bytes.length ≤ 5 →
    s.pktValid = true ∧ s.pktLen.toNat = d.bytes.length ∧ s.pktTs = d.time
      ∧ ∀ i (h : i < d.bytes.length), s.pktByte i = d.bytes[i]

/-- R33, R35: after a symbol transaction `bit_valid` is 1 exactly when the PTD's transaction emits a bit, `bit_data` is then
that bit, and `ptd_evt` carries the transaction's code. -/
def Obligations.BitPortCarriesTheEmittedBit : Prop :=
  ∀ (x : Byte) (s t : State), exec (decodeSymbol x) s = .next t →
    (t.bitValid = true ↔ ∃ b, (ptdTransaction s.params s.ptd x).bit = some b)
      ∧ (∀ b, (ptdTransaction s.params s.ptd x).bit = some b → t.bitData = b)
      ∧ t.out.ptdEvt = (ptdTransaction s.params s.ptd x).event

/-- R34, R100: after a rate query the wires of `rate_nin` carry the product, and it fits them in a legal instance for every
`n_out` the port can carry. -/
def Obligations.RatePortCarriesTheAnswer : Prop :=
  ∀ (s : State) (nOut : Nat), ∃ t, exec (.rateQuery nOut) s = .next t
    ∧ t.rateNin = nOut * ⌈((1425000 * s.params.sampleRateHz : Nat) : Rat) / 1000000000⌉₊
    ∧ (s.params.Legal → nOut < 2 ^ s.params.noutW →
        t.rateNin < 2 ^ (s.params.noutW + rateKWidth s.params))

/-- R70, R71, R74, R25: the codes on the event ports and of `st`; codes 6 and 7 are never produced. -/
def Obligations.EventCodesAreTheTables : Prop :=
  (PtdEvent.noEvent.code = 0 ∧ PtdEvent.bit0.code = 1 ∧ PtdEvent.bit1.code = 2 ∧ PtdEvent.eot.code = 3
      ∧ PtdEvent.invalidTiming.code = 4 ∧ PtdEvent.invalidSymbol.code = 5)
    ∧ (FsmEvent.noEvent.code = 0 ∧ FsmEvent.syncOk.code = 1 ∧ FsmEvent.syncFail.code = 2
      ∧ FsmEvent.parityError.code = 3 ∧ FsmEvent.checksumFail.code = 4 ∧ FsmEvent.delivered.code = 5)
    ∧ (FsmState.reset.code = 0 ∧ FsmState.sync.code = 1 ∧ FsmState.head.code = 2 ∧ FsmState.tail.code = 3)
    ∧ (∀ e : PtdEvent, e.code.toNat < 6) ∧ (∀ e : FsmEvent, e.code.toNat < 6)
end

