-- ==== Sys2Proof/Laws/State.lean ====
section
/-! SUPPORT. The machine's fields after each named update, one lemma a field, so that no later proof unfolds a record. -/

namespace Sys2Proof.Machine

/-! ## A symbol transaction -/

@[simp] theorem applyPtd_params (t : PtdStep) (s : State) :
    (s.applyPtd t).params = s.params := rfl
@[simp] theorem applyPtd_ptd (t : PtdStep) (s : State) :
    (s.applyPtd t).ptd = t.regs := rfl
@[simp] theorem applyPtd_fsm (t : PtdStep) (s : State) :
    (s.applyPtd t).fsm = s.fsm := rfl
@[simp] theorem applyPtd_timeIn (t : PtdStep) (s : State) :
    (s.applyPtd t).timeIn = s.timeIn := rfl
@[simp] theorem applyPtd_stimulus (t : PtdStep) (s : State) :
    (s.applyPtd t).stimulus = s.stimulus := rfl
@[simp] theorem applyPtd_out (t : PtdStep) (s : State) :
    (s.applyPtd t).out = { s.out with bit := t.bit, ptdEvt := t.event } := rfl
@[simp] theorem applyPtd_trace (t : PtdStep) (s : State) :
    (s.applyPtd t).trace = { s.trace with
        bits := s.trace.bits ++ t.bit.toList
        ptdEvents := s.trace.ptdEvents ++ [t.event]
        consumed := s.trace.consumed + 1 } := rfl
@[simp] theorem applyPtd_draws (t : PtdStep) (s : State) :
    (s.applyPtd t).draws = s.draws := rfl

/-! ## A bit transaction -/

@[simp] theorem applyFsm_params (t : FsmStep) (s : State) :
    (s.applyFsm t).params = s.params := rfl
@[simp] theorem applyFsm_ptd (t : FsmStep) (s : State) :
    (s.applyFsm t).ptd = s.ptd := rfl
@[simp] theorem applyFsm_fsm (t : FsmStep) (s : State) :
    (s.applyFsm t).fsm = t.regs := rfl
@[simp] theorem applyFsm_timeIn (t : FsmStep) (s : State) :
    (s.applyFsm t).timeIn = s.timeIn := rfl
@[simp] theorem applyFsm_stimulus (t : FsmStep) (s : State) :
    (s.applyFsm t).stimulus = s.stimulus := rfl
@[simp] theorem applyFsm_out (t : FsmStep) (s : State) :
    (s.applyFsm t).out = { s.out with fsmEvt := t.event, pkt := t.delivery } := rfl
@[simp] theorem applyFsm_trace (t : FsmStep) (s : State) :
    (s.applyFsm t).trace = { s.trace with
        fsmEvents := s.trace.fsmEvents ++ [t.event]
        deliveries := s.trace.deliveries ++ t.delivery.toList } := rfl
@[simp] theorem applyFsm_draws (t : FsmStep) (s : State) :
    (s.applyFsm t).draws = s.draws := rfl

/-! ## Reset -/

@[simp] theorem applyReset_params (s : State) :
    s.applyReset.params = s.params := rfl
@[simp] theorem applyReset_ptd (s : State) :
    s.applyReset.ptd = ⟨0, 0⟩ := rfl
@[simp] theorem applyReset_fsm (s : State) :
    s.applyReset.fsm = ⟨.reset, 0, 0, 0, 0, Memory.ofBytes (Config.freePktByte s.draws),
        Config.freeResetTime s.draws % 2 ^ s.params.tsW⟩ := rfl
@[simp] theorem applyReset_timeIn (s : State) :
    s.applyReset.timeIn = s.timeIn := rfl
@[simp] theorem applyReset_stimulus (s : State) :
    s.applyReset.stimulus = s.stimulus := rfl
@[simp] theorem applyReset_out (s : State) :
    s.applyReset.out = { Outputs.quiet with rateNin := s.out.rateNin } := rfl
@[simp] theorem applyReset_trace (s : State) :
    s.applyReset.trace = s.trace := rfl
@[simp] theorem applyReset_draws (s : State) :
    s.applyReset.draws = s.draws + 1 := rfl

/-! ## The sampling of an edge -/

@[simp] theorem sample_params (s : State) (e : Pins) :
    (s.sample e).params = s.params := rfl
@[simp] theorem sample_ptd (s : State) (e : Pins) :
    (s.sample e).ptd = s.ptd := rfl
@[simp] theorem sample_fsm (s : State) (e : Pins) :
    (s.sample e).fsm = s.fsm := rfl
@[simp] theorem sample_timeIn (s : State) (e : Pins) :
    (s.sample e).timeIn = e.timeIn.map (· % 2 ^ s.params.tsW) := rfl
@[simp] theorem sample_stimulus (s : State) (e : Pins) :
    (s.sample e).stimulus = s.stimulus.tail := rfl
@[simp] theorem sample_out (s : State) (e : Pins) :
    (s.sample e).out = { Outputs.quiet with symReady := symReady s.params e } := rfl
@[simp] theorem sample_trace (s : State) (e : Pins) :
    (s.sample e).trace = s.trace := rfl
@[simp] theorem sample_draws (s : State) (e : Pins) :
    (s.sample e).draws = s.draws + 1 := rfl

/-! ## The move to RESET -/

@[simp] theorem toReset_st (r : FsmRegs) :
    r.toReset.st = .reset := rfl
@[simp] theorem toReset_nbits (r : FsmRegs) :
    r.toReset.nbits = r.nbits := rfl
@[simp] theorem toReset_nbytes (r : FsmRegs) :
    r.toReset.nbytes = r.nbytes := rfl
@[simp] theorem toReset_parity (r : FsmRegs) :
    r.toReset.parity = r.parity := rfl
@[simp] theorem toReset_lastByte (r : FsmRegs) :
    r.toReset.lastByte = r.lastByte := rfl
@[simp] theorem toReset_pkt (r : FsmRegs) :
    r.toReset.pkt = r.pkt := rfl
@[simp] theorem toReset_ts (r : FsmRegs) :
    r.toReset.ts = r.ts := rfl

/-! ## The clear with which the bit after RESET begins -/

@[simp] theorem resetClear_st (r : FsmRegs) :
    r.resetClear.st = .sync := rfl
@[simp] theorem resetClear_nbits (r : FsmRegs) :
    r.resetClear.nbits = 0 := rfl
@[simp] theorem resetClear_nbytes (r : FsmRegs) :
    r.resetClear.nbytes = 0 := rfl
@[simp] theorem resetClear_parity (r : FsmRegs) :
    r.resetClear.parity = 0 := rfl
@[simp] theorem resetClear_lastByte (r : FsmRegs) :
    r.resetClear.lastByte = 0 := rfl
@[simp] theorem resetClear_pkt (r : FsmRegs) :
    r.resetClear.pkt = r.pkt := rfl
@[simp] theorem resetClear_ts (r : FsmRegs) :
    r.resetClear.ts = r.ts := rfl

/-! ## The entry of TAIL -/

@[simp] theorem enterTail_st (r : FsmRegs) :
    (enterTail r).st = .tail := rfl
@[simp] theorem enterTail_nbits (r : FsmRegs) :
    (enterTail r).nbits = r.nbits := rfl
@[simp] theorem enterTail_nbytes (r : FsmRegs) :
    (enterTail r).nbytes = r.nbytes := rfl
@[simp] theorem enterTail_parity (r : FsmRegs) :
    (enterTail r).parity = r.parity := rfl
@[simp] theorem enterTail_lastByte (r : FsmRegs) :
    (enterTail r).lastByte = frameLength (r.pkt.read cmdBytePos) := rfl
@[simp] theorem enterTail_pkt (r : FsmRegs) :
    (enterTail r).pkt = r.pkt := rfl
@[simp] theorem enterTail_ts (r : FsmRegs) :
    (enterTail r).ts = r.ts := rfl

end Sys2Proof.Machine
end

