-- ==== Sys2Proof/Laws/Memory.lean ====
section
/-! SUPPORT. The packet buffer: a read after a write, and that every operation keeps the canonical form. -/

namespace Sys2Proof.Machine

theorem Memory.read_write_same (m : Memory) (a : Nat) (v : Byte)
    (h : m.Pairwise (fun c d => c.1 < d.1)) : (m.write a v).read a = v := by
  induction m with
  | nil => by_cases hv : v = Memory.unlisted <;> simp [Memory.write, Memory.read, hv]
  | cons c rest ih =>
    obtain ⟨k, w⟩ := c
    obtain ⟨hk, hrest⟩ := List.pairwise_cons.1 h
    have below : ∀ (n : Memory), (∀ c ∈ n, a < c.1) → Memory.read n a = Memory.unlisted := by
      intro n
      induction n with
      | nil => intro _; rfl
      | cons d n ihn =>
        intro hn
        have hd : a < d.1 := hn d (by simp)
        simp only [Memory.read, Nat.ne_of_lt hd, if_false]
        exact ihn fun e he => hn e (by simp [he])
    have rest_below : a ≤ k → Memory.read rest a = Memory.unlisted := fun hak =>
      below rest fun e he => lt_of_le_of_lt hak (hk e he)
    simp only [Memory.write]
    split_ifs with h1 h2 h3 h4
    · simp [Memory.read, Nat.ne_of_lt h1, rest_below (Nat.le_of_lt h1), h2]
    · simp [Memory.read]
    · rw [rest_below (Nat.le_of_eq h3), h4]
    · simp [Memory.read]
    · simp only [Memory.read, h3, if_false]
      exact ih hrest

theorem Memory.read_write_other (m : Memory) (a b : Nat) (v : Byte) (hab : b ≠ a)
    (h : m.Pairwise (fun c d => c.1 < d.1)) : (m.write a v).read b = m.read b := by
  induction m with
  | nil => by_cases hv : v = Memory.unlisted <;> simp [Memory.write, Memory.read, hv, hab]
  | cons c rest ih =>
    obtain ⟨k, w⟩ := c
    obtain ⟨-, hrest⟩ := List.pairwise_cons.1 h
    simp only [Memory.write]
    split_ifs with h1 h2 h3 h4
    · rfl
    · simp [Memory.read, hab]
    · subst h3; simp [Memory.read, hab]
    · subst h3; simp [Memory.read, hab]
    · simp only [Memory.read]
      split_ifs
      · rfl
      · exact ih hrest

/-- A write adds no index but its own. -/
theorem Memory.mem_write (m : Memory) (a : Nat) (v : Byte) (c : Host.Cell) (hc : c ∈ m.write a v) :
    c ∈ m ∨ (c = (a, v) ∧ v ≠ Memory.unlisted) := by
  induction m with
  | nil =>
    simp only [Memory.write] at hc
    split_ifs at hc with hv
    · simp at hc
    · exact .inr ⟨by simpa using hc, hv⟩
  | cons d rest ih =>
    simp only [Memory.write] at hc
    split_ifs at hc with h1 hv h2 hv
    · exact .inl hc
    · rcases List.mem_cons.1 hc with h | h
      · exact .inr ⟨h, hv⟩
      · exact .inl h
    · exact .inl (List.mem_cons_of_mem _ hc)
    · rcases List.mem_cons.1 hc with h | h
      · exact .inr ⟨h, hv⟩
      · exact .inl (List.mem_cons_of_mem _ h)
    · rcases List.mem_cons.1 hc with h | h
      · exact .inl (by simp [h])
      · exact (ih h).imp_left (List.mem_cons_of_mem _)

theorem Memory.wf_write (m : Memory) (a : Nat) (v : Byte) (ha : a < maxPktLen) (h : m.Wf) :
    (m.write a v).Wf := by
  obtain ⟨hs, hm⟩ := h
  refine ⟨?_, fun c hc => ?_⟩
  · clear hm
    induction m with
    | nil => by_cases hv : v = Memory.unlisted <;> simp [Memory.write, hv]
    | cons c rest ih =>
      obtain ⟨hk, hrest⟩ := List.pairwise_cons.1 hs
      simp only [Memory.write]
      split_ifs with h1 h2 h3 h4
      · exact hs
      · refine List.pairwise_cons.2 ⟨fun d hd => ?_, hs⟩
        rcases List.mem_cons.1 hd with rfl | hd
        · exact h1
        · exact lt_trans h1 (hk d hd)
      · exact hrest
      · subst h3; exact List.pairwise_cons.2 ⟨fun d hd => hk d hd, hrest⟩
      · refine List.pairwise_cons.2 ⟨fun d hd => ?_, ih hrest⟩
        rcases Memory.mem_write rest a v d hd with hd | ⟨rfl, -⟩
        · exact hk d hd
        · exact lt_of_le_of_ne (Nat.le_of_not_lt h1) (Ne.symm h3)
  · rcases Memory.mem_write m a v c hc with hc | ⟨rfl, hv⟩
    · exact hm c hc
    · exact ⟨ha, hv⟩

theorem Memory.wf_nil : Memory.Wf [] := ⟨List.Pairwise.nil, by simp⟩

theorem Memory.wf_ofBytes (f : Nat → Byte) : (Memory.ofBytes f).Wf := by
  have go : ∀ (l : List Nat) (m : Memory), (∀ i ∈ l, i < maxPktLen) → m.Wf →
      (l.foldl (fun m i => Memory.write m i (f i)) m).Wf := by
    intro l
    induction l with
    | nil => intro m _ h; exact h
    | cons i l ih =>
      intro m hl h
      exact ih _ (fun j hj => hl j (by simp [hj])) (Memory.wf_write m i _ (hl i (by simp)) h)
  exact go _ _ (fun i hi => List.mem_range.1 hi) Memory.wf_nil

/-- Inside the buffer a read gives the byte. -/
@[simp] theorem pktRead_inside {m : Memory} {a : Nat} (h : a < maxPktLen) : pktRead m a = some (m.read a) :=
  if_pos h

/-- Outside the buffer there is no byte. -/
@[simp] theorem pktRead_outside {m : Memory} {a : Nat} (h : ¬ a < maxPktLen) : pktRead m a = none :=
  if_neg h

end Sys2Proof.Machine
end

