-- ==== Sys2Proof/Laws/Fsm.lean ====
section
/-! SUPPORT. What the FSM's shared operations can do, each said once: `fill`, the complete frame, one bit
transaction, and the call on a list of bits. -/

namespace Sys2Proof.Machine

theorem parityIsOdd_iff (parity b : Bit) : parityIsOdd parity b = true ↔ (parity.toNat + b.toNat) % 2 = 1 := by
  revert parity b; decide

theorem paritySum_toNat (parity b : Bit) : (paritySum parity b).toNat = (parity.toNat + b.toNat) % 2 := by
  revert parity b; decide

theorem shiftIn_toNat (old : Byte) (b : Bit) : (shiftIn old b).toNat = (old.toNat * 2 + b.toNat) % 256 := by
  simp [shiftIn]

/-- `fill` on a data bit (41_frame_machine.md R109). -/
theorem fill_data (b : Bit) (r : FsmRegs) (h8 : r.nbits.toNat ≠ 8) (hn : r.nbytes.toNat < maxPktLen) :
    fill b r = .ok { r with
      parity := paritySum r.parity b
      pkt := r.pkt.write r.nbytes.toNat (shiftIn (r.pkt.read r.nbytes.toNat) b)
      nbits := BitVec.ofNat 4 (r.nbits.toNat + 1) } := by
  simp [fill, fillData, h8, hn]

/-- `fill` on the parity bit of an even group (41_frame_machine.md R110). -/
theorem fill_even (b : Bit) (r : FsmRegs) (h8 : r.nbits.toNat = 8) (hp : (r.parity.toNat + b.toNat) % 2 = 0) :
    fill b r = .ok { r with nbits := 0, parity := 0, nbytes := BitVec.ofNat 3 (r.nbytes.toNat + 1) } := by
  have : parityIsOdd r.parity b = false := by
    rw [Bool.eq_false_iff, Ne, parityIsOdd_iff]; omega
  simp [fill, fillParity, h8, this]

/-- `fill` on the parity bit of an odd group (41_frame_machine.md R110). -/
theorem fill_odd (b : Bit) (r : FsmRegs) (h8 : r.nbits.toNat = 8) (hp : (r.parity.toNat + b.toNat) % 2 = 1) :
    fill b r = .parityError := by
  simp [fill, fillParity, h8, (parityIsOdd_iff r.parity b).2 hp]

/-- The registers of a SYNC bit's step keep the invariant (41_frame_machine.md R113 to R115). -/
theorem syncBit_inv (p : Params) (b : Bit) (now : Nat) (r : FsmRegs) (hr : r.Inv p) (hs : r.st = .sync)
    (hnow : now < 2 ^ p.tsW) : (syncBit b now r).regs.Inv p := by
  obtain ⟨hm, ht, hn, hl, hsync, -, -⟩ := hr
  obtain ⟨h1, h2, h3⟩ := hsync hs
  unfold syncBit
  split_ifs
  · exact ⟨hm, ht, hn, hl, fun _ => ⟨h1, h2, h3⟩, by simp [hs], by simp [hs]⟩
  · exact ⟨hm, hnow, hn, hl, by simp, fun _ => ⟨by simp, by simp [h1], h3⟩, by simp⟩
  · exact ⟨hm, ht, hn, hl, by simp, by simp, by simp⟩

/-- The index of the next byte while it fits its register. -/
theorem toNat_succ_byte {n : BitVec 3} (h : n.toNat < 7) : (BitVec.ofNat 3 (n.toNat + 1)).toNat = n.toNat + 1 := by
  simp; omega

/-- The count of data bits after one more. -/
theorem toNat_succ_bit {n : BitVec 4} (h : n.toNat < 15) : (BitVec.ofNat 4 (n.toNat + 1)).toNat = n.toNat + 1 := by
  simp; omega

/-- What a data bit leaves in the registers (41_frame_machine.md R109). -/
def withDataBit (b : Bit) (r : FsmRegs) : FsmRegs :=
  { r with
    parity := paritySum r.parity b
    pkt := r.pkt.write r.nbytes.toNat (shiftIn (r.pkt.read r.nbytes.toNat) b)
    nbits := BitVec.ofNat 4 (r.nbits.toNat + 1) }

/-- What the parity bit of an even group leaves in the registers (41_frame_machine.md R110). -/
def withClosedByte (r : FsmRegs) : FsmRegs :=
  { r with nbits := 0, parity := 0, nbytes := BitVec.ofNat 3 (r.nbytes.toNat + 1) }

/-- A data bit in HEAD (41_frame_machine.md R118). -/
theorem headBit_data (b : Bit) (r : FsmRegs) (h8 : r.nbits.toNat ≠ 8) (hn : r.nbytes.toNat ≤ 3) :
    headBit b r = some ⟨withDataBit b r, .noEvent, none⟩ := by
  rw [headBit, fill_data b r h8 (by unfold maxPktLen; omega)]
  exact if_pos hn

/-- The parity bit of an even group in HEAD before the command byte (41_frame_machine.md R118). -/
theorem headBit_even (b : Bit) (r : FsmRegs) (h8 : r.nbits.toNat = 8) (hp : (r.parity.toNat + b.toNat) % 2 = 0)
    (hn : r.nbytes.toNat < 3) : headBit b r = some ⟨withClosedByte r, .noEvent, none⟩ := by
  rw [headBit, fill_even b r h8 hp]
  exact if_pos (by rw [toNat_succ_byte (by omega)]; unfold cmdBytePos; omega)

/-- The command byte's parity bit in HEAD (41_frame_machine.md R119). -/
theorem headBit_command (b : Bit) (r : FsmRegs) (h8 : r.nbits.toNat = 8) (hp : (r.parity.toNat + b.toNat) % 2 = 0)
    (hn : r.nbytes.toNat = 3) : headBit b r = some ⟨enterTail (withClosedByte r), .noEvent, none⟩ := by
  rw [headBit, fill_even b r h8 hp]
  exact if_neg (by rw [toNat_succ_byte (by omega)]; unfold cmdBytePos; omega)

/-- The ninth bit of an odd group in HEAD (41_frame_machine.md R117). -/
theorem headBit_odd (b : Bit) (r : FsmRegs) (h8 : r.nbits.toNat = 8) (hp : (r.parity.toNat + b.toNat) % 2 = 1) :
    headBit b r = some ⟨r.toReset, .parityError, none⟩ := by
  rw [headBit, fill_odd b r h8 hp]

/-- A data bit in TAIL (41_frame_machine.md R122). -/
theorem tailBit_data (b : Bit) (r : FsmRegs) (h8 : r.nbits.toNat ≠ 8) (hn : r.nbytes.toNat < maxPktLen)
    (hl : r.nbytes.toNat < r.lastByte.toNat) :
    tailBit b r = some ⟨withDataBit b r, .noEvent, none⟩ := by
  rw [tailBit, fill_data b r h8 hn]
  exact if_pos hl

/-- The parity bit of an even group in TAIL before the last byte (41_frame_machine.md R122). -/
theorem tailBit_even (b : Bit) (r : FsmRegs) (h8 : r.nbits.toNat = 8) (hp : (r.parity.toNat + b.toNat) % 2 = 0)
    (hl : r.nbytes.toNat + 1 < r.lastByte.toNat) : tailBit b r = some ⟨withClosedByte r, .noEvent, none⟩ := by
  rw [tailBit, fill_even b r h8 hp]
  exact if_pos (by rw [toNat_succ_byte (by have := r.lastByte.isLt; omega)]; exact hl)

/-- The ninth bit of an odd group in TAIL (41_frame_machine.md R121). -/
theorem tailBit_odd (b : Bit) (r : FsmRegs) (h8 : r.nbits.toNat = 8) (hp : (r.parity.toNat + b.toNat) % 2 = 1) :
    tailBit b r = some ⟨r.toReset, .parityError, none⟩ := by
  rw [tailBit, fill_odd b r h8 hp]

/-- The complete frame's step (41_frame_machine.md R123 to R127): n payload bytes, the checksum byte at index n. -/
theorem finishFrame_eq (r : FsmRegs) (n : Nat) (hn : (r.nbytes - 1).toNat = n) (hin : n < maxPktLen) :
    finishFrame r = some
      (if checksumAccepts (r.pkt.read n) (checksum r.pkt n) then
        ⟨{ r with nbytes := r.nbytes - 1, st := .reset }, .delivered, some ⟨payload r.pkt n, r.ts⟩⟩
      else ⟨{ r with nbytes := r.nbytes - 1, st := .reset }, .checksumFail, none⟩) := by
  subst hn
  simp only [finishFrame, pktRead_inside hin, FsmRegs.toReset]
  split_ifs <;> rfl

/-- The last parity bit in TAIL (41_frame_machine.md R123 to R127): `nbytes` goes up and down again. -/
theorem tailBit_complete (b : Bit) (r : FsmRegs) (h8 : r.nbits.toNat = 8)
    (hp : (r.parity.toNat + b.toNat) % 2 = 0) (hn : r.nbytes.toNat < maxPktLen)
    (hl : r.lastByte.toNat ≤ r.nbytes.toNat + 1) :
    tailBit b r = some
      (if checksumAccepts (r.pkt.read r.nbytes.toNat) (checksum r.pkt r.nbytes.toNat) then
        ⟨{ r with nbits := 0, parity := 0, st := .reset }, .delivered,
          some ⟨payload r.pkt r.nbytes.toNat, r.ts⟩⟩
      else ⟨{ r with nbits := 0, parity := 0, st := .reset }, .checksumFail, none⟩) := by
  have hlt : r.nbytes.toNat < 7 := lt_trans hn (by decide)
  have hsub : (BitVec.ofNat 3 (r.nbytes.toNat + 1) - 1).toNat = r.nbytes.toNat := by
    rw [BitVec.toNat_sub, toNat_succ_byte hlt]; simp; omega
  have hback : BitVec.ofNat 3 (r.nbytes.toNat + 1) - 1 = r.nbytes := BitVec.eq_of_toNat_eq hsub
  rw [tailBit, fill_even b r h8 hp]
  have hge : ¬ (BitVec.ofNat 3 (r.nbytes.toNat + 1)).toNat < r.lastByte.toNat := by
    rw [toNat_succ_byte hlt]; omega
  simp only [hge, if_false]
  rw [finishFrame_eq _ r.nbytes.toNat hsub hn]
  simp only [hback]

/-- A data bit keeps the invariant where it is written in HEAD or TAIL. -/
theorem withDataBit_inv (p : Params) (b : Bit) (r : FsmRegs) (hr : r.Inv p) (h8 : r.nbits.toNat < 8)
    (hs : r.st = .head ∨ r.st = .tail) (hn : r.nbytes.toNat < maxPktLen) : (withDataBit b r).Inv p := by
  obtain ⟨hm, ht, hle, hl, -, hhead, htail⟩ := hr
  have hbits : (withDataBit b r).nbits.toNat ≤ 8 := by
    change (BitVec.ofNat 4 (r.nbits.toNat + 1)).toNat ≤ 8
    rw [toNat_succ_bit (by omega)]; omega
  exact ⟨Memory.wf_write _ _ _ hn hm, ht, hle, hl, fun h => by rcases hs with hs | hs <;> simp [withDataBit, hs] at h,
    fun h => ⟨hbits, (hhead h).2⟩, fun h => ⟨hbits, (htail h).2⟩⟩

/-- A bit in HEAD answers a step that keeps the invariant and makes no delivery (41_frame_machine.md R117 to R120). -/
theorem headBit_inv (p : Params) (b : Bit) (r : FsmRegs) (hr : r.Inv p) (hs : r.st = .head) :
    ∃ t, headBit b r = some t ∧ t.regs.Inv p ∧ t.delivery = none := by
  have hr' := hr
  obtain ⟨hm, ht, hn, hl, -, hhead, -⟩ := hr
  obtain ⟨h1, h2, h3⟩ := hhead hs
  by_cases h8 : r.nbits.toNat = 8
  · rcases Nat.mod_two_eq_zero_or_one (r.parity.toNat + b.toNat) with hp | hp
    · have hb := toNat_succ_byte (n := r.nbytes) (by omega)
      rcases Nat.lt_or_ge r.nbytes.toNat 3 with h | h
      · refine ⟨_, headBit_even b r h8 hp h, ⟨hm, ht, ?_, hl, by simp [withClosedByte, hs], fun _ => ?_,
          by simp [withClosedByte, hs]⟩, rfl⟩
        · change (BitVec.ofNat 3 (r.nbytes.toNat + 1)).toNat ≤ maxPktLen
          rw [hb]; unfold maxPktLen; omega
        · refine ⟨by simp [withClosedByte], ?_, h3⟩
          change (BitVec.ofNat 3 (r.nbytes.toNat + 1)).toNat ≤ 3
          rw [hb]; omega
      · have hlen : ∀ c, frameLength c = 5 ∨ frameLength c = 6 := by
          intro c; unfold frameLength; split_ifs <;> simp
        have hlen5 : ∀ c, 4 < (frameLength c).toNat := by
          intro c; rcases hlen c with h | h <;> simp [h]
        have hb4 : (BitVec.ofNat 3 (r.nbytes.toNat + 1)).toNat = 4 := by rw [hb]; omega
        refine ⟨_, headBit_command b r h8 hp (by omega), ⟨hm, ht, ?_, .inr (hlen _), by simp, by simp, fun _ => ?_⟩, rfl⟩
        · change (BitVec.ofNat 3 (r.nbytes.toNat + 1)).toNat ≤ maxPktLen
          rw [hb4]; decide
        · refine ⟨by simp [withClosedByte], ?_, ?_, hlen _⟩
          · change 4 ≤ (BitVec.ofNat 3 (r.nbytes.toNat + 1)).toNat
            omega
          · change (BitVec.ofNat 3 (r.nbytes.toNat + 1)).toNat < _
            rw [hb4]; exact hlen5 _
    · exact ⟨_, headBit_odd b r h8 hp, ⟨hm, ht, hn, hl, by simp, by simp, by simp⟩, rfl⟩
  · exact ⟨_, headBit_data b r h8 h2,
      withDataBit_inv p b r hr' (by omega) (.inl hs) (by unfold maxPktLen; omega), rfl⟩

/-- A bit in TAIL answers a step that keeps the invariant; a delivery has four or five bytes and the
registers' time (41_frame_machine.md R121 to R128). -/
theorem tailBit_inv (p : Params) (b : Bit) (r : FsmRegs) (hr : r.Inv p) (hs : r.st = .tail) :
    ∃ t, tailBit b r = some t ∧ t.regs.Inv p
      ∧ ∀ d, t.delivery = some d → (d.bytes.length = 4 ∨ d.bytes.length = 5) ∧ d.time = r.ts := by
  have hr' := hr
  obtain ⟨hm, ht, hn, hl, -, -, htail⟩ := hr
  obtain ⟨h1, h2, h3, h4⟩ := htail hs
  have hl6 : r.lastByte.toNat ≤ 6 := by rcases h4 with h | h <;> simp [h]
  have hin : r.nbytes.toNat < maxPktLen := by unfold maxPktLen; omega
  by_cases h8 : r.nbits.toNat = 8
  · rcases Nat.mod_two_eq_zero_or_one (r.parity.toNat + b.toNat) with hp | hp
    · by_cases hlt : r.nbytes.toNat + 1 < r.lastByte.toNat
      · have hb := toNat_succ_byte (n := r.nbytes) (by omega)
        refine ⟨_, tailBit_even b r h8 hp hlt, ⟨hm, ht, ?_, hl, by simp [withClosedByte, hs],
          by simp [withClosedByte, hs], fun _ => ⟨by simp [withClosedByte], ?_, ?_, h4⟩⟩, by simp⟩
        · change (BitVec.ofNat 3 (r.nbytes.toNat + 1)).toNat ≤ maxPktLen
          rw [hb]; unfold maxPktLen; omega
        · change 4 ≤ (BitVec.ofNat 3 (r.nbytes.toNat + 1)).toNat
          rw [hb]; omega
        · change (BitVec.ofNat 3 (r.nbytes.toNat + 1)).toNat < _
          rw [hb]; exact hlt
      · refine ⟨_, tailBit_complete b r h8 hp hin (by omega), ?_, ?_⟩
        · split_ifs <;> exact ⟨hm, ht, hn, hl, by simp, by simp, by simp⟩
        · split_ifs
          · rintro d ⟨⟩
            refine ⟨?_, rfl⟩
            simp only [payload, List.length_map, List.length_range]
            omega
          · simp
    · exact ⟨_, tailBit_odd b r h8 hp, ⟨hm, ht, hn, hl, by simp, by simp, by simp⟩, by simp⟩
  · exact ⟨_, tailBit_data b r h8 hin h3, withDataBit_inv p b r hr' (by omega) (.inr hs) hin, by simp⟩

/-- One bit transaction from registers that meet the invariant: it answers, keeps the invariant, and a
delivery has four or five bytes and the registers' time. -/
theorem fsmTransaction_inv (p : Params) (b : Bit) (now : Nat) (r : FsmRegs) (hr : r.Inv p)
    (hnow : now < 2 ^ p.tsW) :
    ∃ t, fsmTransaction b now r = some t ∧ t.regs.Inv p
      ∧ ∀ d, t.delivery = some d → (d.bytes.length = 4 ∨ d.bytes.length = 5) ∧ d.time = r.ts := by
  have noDelivery : ∀ r', (syncBit b now r').delivery = none := by
    intro r'; unfold syncBit; split_ifs <;> rfl
  cases hs : r.st with
  | reset =>
    refine ⟨syncBit b now r.resetClear, by simp [fsmTransaction, hs], ?_, by simp [noDelivery]⟩
    obtain ⟨hm, ht, -⟩ := hr
    exact syncBit_inv p b now _ ⟨hm, ht, by simp, by simp, by simp, by simp, by simp⟩ rfl hnow
  | sync =>
    exact ⟨syncBit b now r, by simp [fsmTransaction, hs], syncBit_inv p b now r hr hs hnow, by simp [noDelivery]⟩
  | head =>
    obtain ⟨t, h1, h2, h3⟩ := headBit_inv p b r hr hs
    exact ⟨t, by simp [fsmTransaction, hs, h1], h2, by simp [h3]⟩
  | tail =>
    obtain ⟨t, h1, h2⟩ := tailBit_inv p b r hr hs
    exact ⟨t, by simp [fsmTransaction, hs, h1], h2⟩

/-- The bit's operation is its transaction. -/
@[simp] theorem exec_bitInstr (b : Bit) (s : State) : exec (bitInstr b) s = runBit b s := by
  have hb : b = 0 ∨ b = 1 := by revert b; decide
  rcases hb with rfl | rfl <;> rfl

/-- The run of no bits. -/
@[simp] theorem runBits_nil (s : State) : runBits [] s = .next s := rfl

/-- The run of a bit whose transaction the FSM makes, and of the rest after it. -/
theorem runBits_cons {b : Bit} {now : Nat} {s : State} {t : FsmStep} (rest : List (Bit × Nat))
    (h : fsmTransaction b now s.fsm = some t) :
    runBits ((b, now) :: rest) s = runBits rest (State.applyFsm t { s with timeIn := some now }) := by
  have hr : runBit b { s with timeIn := some now } = .next (State.applyFsm t { s with timeIn := some now }) := by
    unfold runBit
    have h' : fsmTransaction b ({ s with timeIn := some now } : State).now s.fsm = some t := h
    rw [h']
  simp only [runBits, exec_bitInstr, hr]

/-- A call on no bits. -/
@[simp] theorem consumeBits_nil (r : FsmRegs) : consumeBits r [] = some ⟨r, [], []⟩ := rfl

/-- A call on a bit whose transaction is known. -/
theorem consumeBits_cons {b : Bit} {now : Nat} {r : FsmRegs} {t : FsmStep} (rest : List (Bit × Nat))
    (h : fsmTransaction b now r = some t) :
    consumeBits r ((b, now) :: rest) =
      (consumeBits t.regs rest).map fun c => ⟨c.regs, t.event :: c.events, t.delivery.toList ++ c.deliveries⟩ := by
  simp only [consumeBits, h]
  cases consumeBits t.regs rest <;> rfl

end Sys2Proof.Machine
end

