-- ==== Sys2Proof/Laws/Ptd.lean ====
section
/-! SUPPORT. What a symbol transaction can do, each said once: the PTD's step, its two wirings, and the chunk call. -/

namespace Sys2Proof.Machine

/-- Separate units: a symbol transaction is the PTD's alone (10_state.md R40). -/
theorem runSymbol_separate (t : PtdStep) (s : State) (h : s.params.composed = false) :
    runSymbol t s = .next (s.applyPtd t) := by
  simp [runSymbol, feedFsm, h]

/-- Without a bit the FSM is not fed, in either wiring (40_pulse_timing.md R96). -/
theorem runSymbol_noBit (t : PtdStep) (s : State) (h : t.bit = none) :
    runSymbol t s = .next (s.applyPtd t) := by
  cases hc : s.params.composed <;> simp [runSymbol, feedFsm, hc, h]

/-- Composed, an emitted bit is the FSM's transaction after the PTD's step (10_state.md R40). -/
theorem runSymbol_composed (t : PtdStep) (s : State) (b : Bit) (h : s.params.composed = true) (hb : t.bit = some b) :
    runSymbol t s = runBit b (s.applyPtd t) := by
  simp [runSymbol, feedFsm, h, hb]

/-- Every decoded symbol runs the PTD's step for its value (40_pulse_timing.md R81, 30_encoding.md R62). -/
theorem exec_decodeSymbol (x : Byte) (s : State) :
    exec (decodeSymbol x) s = runSymbol (ptdTransaction s.params s.ptd x) s := by
  by_cases h0 : x = 0
  · subst h0; rfl
  · by_cases h1 : x = 1
    · subst h1; rfl
    · have a0 : ¬ x &&& 0xFF#8 = 0x00#8 := by revert x; decide
      have a1 : ¬ x &&& 0xFF#8 = 0x01#8 := by revert x; decide
      simp only [ptdTransaction, h0, h1, if_false, decodeSymbol, a0, a1]
      split_ifs <;> rfl

/-- CNT_MAX is at least 1 in an instance the spec admits (00_scope.md R7, R9). -/
theorem cntMax_pos {p : Params} (hp : p.Legal) : 1 ≤ p.cntMax := by
  obtain ⟨h1, h2⟩ := hp
  by_contra h
  have : p.cntMax = 0 := by omega
  rw [this] at h2
  omega

/-- A symbol transaction keeps the PTD's invariant (10_state.md R21 to R23). -/
theorem ptdTransaction_inv (p : Params) (r : PtdRegs) (x : Byte) (hp : p.Legal) (hr : r.Inv p) :
    (ptdTransaction p r x).regs.Inv p := by
  obtain ⟨h1, h2, h3⟩ := hr
  have hpos := cntMax_pos hp
  unfold ptdTransaction ptdHigh ptdLow ptdInvalid satSucc
  split_ifs <;> refine ⟨?_, ?_, ?_⟩ <;> simp only [] <;> omega

/-- The chunk call on no symbols. -/
@[simp] theorem consumeChunk_nil (p : Params) (r : PtdRegs) (cap : Nat) : consumeChunk p r [] cap = ⟨0, [], r⟩ := rfl

/-- The chunk call without room. -/
@[simp] theorem consumeChunk_full (p : Params) (r : PtdRegs) (xs : List Byte) : consumeChunk p r xs 0 = ⟨0, [], r⟩ := by
  cases xs <;> simp [consumeChunk]

/-- The chunk call on a symbol with room for a bit (40_pulse_timing.md R93). -/
theorem consumeChunk_cons (p : Params) (r : PtdRegs) (x : Byte) (xs : List Byte) (cap : Nat) (h : cap ≠ 0) :
    consumeChunk p r (x :: xs) cap =
      (let t := ptdTransaction p r x
       let c := consumeChunk p t.regs xs (cap - t.bit.toList.length)
       ⟨c.consumed + 1, t.bit.toList ++ c.bits, c.regs⟩) := by
  simp [consumeChunk, h]

end Sys2Proof.Machine
end

