-- ==== Sys2Proof/Laws/Step.lean ====
section
/-! SUPPORT. The run of an edge's words: no words, one word, and the rest after the first. -/

namespace Sys2Proof.Machine

@[simp] theorem runWords_nil (s : State) : runWords [] s = .next s := rfl

/-- A word that decodes runs its operation, then the rest. -/
theorem runWords_cons {w : PortWord} {rest : List PortWord} {s : State} {i : Instr} (hd : decode s.params w = .ok i) :
    runWords (w :: rest) s =
      match exec i s with
      | .next t => runWords rest t
      | .fault f => .fault f
      | .refused r => .refused r := by
  cases h : exec i s <;> simp only [runWords, hd, h]

/-- A word alone is its operation. -/
theorem runWords_single {w : PortWord} {s : State} {i : Instr} (hd : decode s.params w = .ok i) :
    runWords [w] s = exec i s := by
  rw [runWords_cons hd]
  cases exec i s <;> rfl

/-- The step is the run of the next edge's words on the machine with that edge sampled. -/
theorem step_eq (s : State) : step s = runWords (s.nextEdge.words s.params) (s.sample s.nextEdge) := rfl

/-- The accepted symbol of an edge decodes to its operation (30_encoding.md R62). -/
theorem decode_symWord (p : Params) (x : Byte) : decode p ⟨.sym8, x.toNat⟩ = .ok (decodeSymbol x) := by
  simp [decode, x.isLt]

/-- The bit of an edge decodes to its operation (30_encoding.md R63). -/
theorem decode_bitWord (p : Params) (b : Bit) : decode p ⟨.bit1, b.toNat⟩ = .ok (bitInstr b) := by
  have hb : b = 0 ∨ b = 1 := by revert b; decide
  rcases hb with rfl | rfl <;> rfl

/-- The rate query of an edge decodes to its operation (30_encoding.md R65). -/
theorem decode_rateWord (p : Params) (n : Nat) :
    decode p ⟨.rateq, n % 2 ^ p.noutW⟩ = .ok (.rateQuery (n % 2 ^ p.noutW)) := by
  simp [decode, decodeRate, Nat.mod_lt]

/-- The reset of an edge decodes to its operation (30_encoding.md R66). -/
theorem decode_resetWord (p : Params) : decode p ⟨.rst1, 1⟩ = .ok .reset := rfl

end Sys2Proof.Machine
end

