-- ==== Sys2Proof/Laws/PerInstr.lean ====
section
/-! SUPPORT. Per operation: its word stands in its own row of the opcode table (30_encoding.md R62 to R66). -/

namespace Sys2Proof.Laws.OwnRow

/-- The operation's row is a row of the table, and the operation's word fits it. -/
def Statement (i : Instr) : Prop := i.row ∈ symbolRows ++ otherRows ∧ i.row.fits (encode i) = true

theorem sym0 : Statement .sym0 := by unfold Statement; decide

theorem sym1 : Statement .sym1 := by unfold Statement; decide

theorem symInvalid02 (low : BitVec 1) : Statement (.symInvalid02 low) := by revert low; unfold Statement; decide

theorem symInvalid04 (low : BitVec 2) : Statement (.symInvalid04 low) := by revert low; unfold Statement; decide

theorem symInvalid08 (low : BitVec 3) : Statement (.symInvalid08 low) := by revert low; unfold Statement; decide

theorem symInvalid10 (low : BitVec 4) : Statement (.symInvalid10 low) := by revert low; unfold Statement; decide

theorem symInvalid20 (low : BitVec 5) : Statement (.symInvalid20 low) := by revert low; unfold Statement; decide

theorem symInvalid40 (low : BitVec 6) : Statement (.symInvalid40 low) := by revert low; unfold Statement; decide

theorem symInvalid80 (low : BitVec 7) : Statement (.symInvalid80 low) := by revert low; unfold Statement; decide

theorem fbit0 : Statement .fbit0 := by unfold Statement; decide

theorem fbit1 : Statement .fbit1 := by unfold Statement; decide

theorem rateQuery (nOut : Nat) : Statement (.rateQuery nOut) := ⟨by simp [symbolRows, otherRows, Instr.row], by simp [Instr.row, Row.fits, encode]⟩

theorem reset : Statement .reset := by unfold Statement; decide

end Sys2Proof.Laws.OwnRow
end

