-- ==== Sys2Proof/Machine/Stimulus.lean ====
section
/-! DEFINITION. The stimulus notation of 30_encoding.md R76 to R79: what its tokens expand to, the edges that present the
expansion to the ports, and the result's numbering. Notation only: no step reads it. -/

namespace Sys2Proof.Machine

/-- A token of a PTD program (30_encoding.md R76, R78). `CHUNK<c>` is no symbol: it is the capacity of a chunk
call (Machine/Ptd.lean, consumeChunk). -/
inductive PtdToken where
  /-- `H<n>` -/
  | high (n : Nat)
  /-- `L<n>` -/
  | low (n : Nat)
  /-- `X<hh>` -/
  | symbol (s : Byte)
  /-- `PULSE <h>,<l>` -/
  | pulse (h l : Nat)
  /-- `B0`, at R = 10000 -/
  | b0
  /-- `B1`, at R = 10000 -/
  | b1
  /-- `EOTP`, at R = 10000 -/
  | eotp
  /-- `BITS2SYM <bits>`, at R = 10000 -/
  | bits2sym (bits : List Bit)
  deriving DecidableEq, Repr

/-- A high run and a low run (30_encoding.md R78). -/
def pulseSymbols (h l : Nat) : List Byte := List.replicate h 1 ++ List.replicate l 0

/-- The pulse of a bit at R = 10000 (30_encoding.md R78). -/
def bitPulse (b : Bit) : List Byte := if b = 0 then pulseSymbols 4 4 else pulseSymbols 6 6

/-- The symbols a PTD token expands to (30_encoding.md R76, R78). -/
def PtdToken.symbols (t : PtdToken) : List Byte :=
  match t with
  | .high n => List.replicate n 1
  | .low n => List.replicate n 0
  | .symbol s => [s]
  | .pulse h l => pulseSymbols h l
  | .b0 => bitPulse 0
  | .b1 => bitPulse 1
  | .eotp => pulseSymbols 4 20
  | .bits2sym bits => bits.flatMap bitPulse

/-- A token of an FSM program that stands for bits (30_encoding.md R77, R78). `T<t>` is no bit: it is the time
the bits after it arrive at. -/
inductive FsmToken where
  /-- a string of digits -/
  | digits (bits : List Bit)
  /-- `SYNC` -/
  | sync
  /-- `BYTE <v>` -/
  | byte (v : Byte)
  /-- `BADBYTE <v>` -/
  | badByte (v : Byte)
  deriving DecidableEq, Repr

/-- The eight bits of a byte, MSB first (30_encoding.md R78). -/
def msbFirst (v : Byte) : List Bit := (List.range 8).map fun i => BitVec.ofBool (v.getLsbD (7 - i))

/-- The count of 1s in a byte, mod 2 (30_encoding.md R78). -/
def onesMod2 (v : Byte) : Bit := (msbFirst v).foldl (fun a b => a + b) 0

/-- The bits an FSM token expands to (30_encoding.md R77, R78). -/
def FsmToken.bits (t : FsmToken) : List Bit :=
  match t with
  | .digits bits => bits
  | .sync => List.replicate 12 0 ++ [1]
  | .byte v => msbFirst v ++ [onesMod2 v]
  | .badByte v => msbFirst v ++ [~~~ onesMod2 v]

/-- The edges that present symbols, with room for a bit at each, symbol k at `time k` (10_state.md R32). -/
def symbolEdges (time : Nat → Nat) (k : Nat) (syms : List Byte) : List Pins :=
  match syms with
  | [] => []
  | x :: rest =>
    { Pins.idle with symValid := true, symData := x, bitReady := true, timeIn := some (time k) }
      :: symbolEdges time (k + 1) rest

/-- The edges that present bits to the FSM's port, bit k at `time k` (10_state.md R36, R37). -/
def bitEdges (time : Nat → Nat) (k : Nat) (bits : List Bit) : List Pins :=
  match bits with
  | [] => []
  | b :: rest =>
    { Pins.idle with fbitValid := true, fbitData := b, timeIn := some (time k) } :: bitEdges time (k + 1) rest

/-- The non-NONE codes of a list with the index of the input that produced each, from index k (30_encoding.md R79). -/
def numbered {α : Type} [DecidableEq α] (none : α) (k : Nat) (events : List α) : List (Nat × α) :=
  match events with
  | [] => []
  | e :: rest => if e = none then numbered none (k + 1) rest else (k, e) :: numbered none (k + 1) rest

end Sys2Proof.Machine
end

