-- ==== Sys2Proof/Tests/Slice0.lean ====
section
/-! SUPPORT. Tests of the model on the spec's own vectors (95_test_vectors.md), and for each statement of
Certificates/Slice0/Obligations.lean that has hypotheses, states and operands that meet them all. -/

namespace Sys2Proof.Tests

open Sys2Proof Sys2Proof.Machine

/-! ## Helpers -/

/-- The vectors' instance: R = 10000, default widths; the units composed or separate. -/
def at10k (composed : Bool) : Params := ⟨10000, 32, 64, 32, composed⟩

/-- The vectors' instance after reset. -/
def start (composed : Bool) : State := State.resetOf (at10k composed)

/-- The next state of an outcome. -/
def nextOf (o : Host.Outcome State Fault Refusal) : Option State :=
  match o with
  | .next s => some s
  | .fault _ => none
  | .refused _ => none

/-- A PTD with the given counters, and what it shows after an operation: counters, bit, event. -/
def ptdAfter (hc lc : Nat) (i : Instr) : Option (PtdRegs × Option Bit × PtdEvent) :=
  (nextOf (exec i { start false with ptd := ⟨hc, lc⟩ })).map fun t => (t.ptd, t.out.bit, t.out.ptdEvt)

/-- FSM registers written as the vectors write them. -/
def fsm (st : FsmState) (nbits : BitVec 4) (nbytes : BitVec 3) (parity : Bit) (lastByte : BitVec 3)
    (pkt : Memory) : FsmRegs := ⟨st, nbits, nbytes, parity, lastByte, pkt, 112⟩

/-- What a bit at time 112 does to FSM registers: the registers and the event. -/
def fsmAfter (b : Bit) (r : FsmRegs) : Option (FsmRegs × FsmEvent) :=
  (nextOf (exec (bitInstr b) { start false with fsm := r, timeIn := some 112 })).map fun t => (t.fsm, t.out.fsmEvt)

/-- A machine whose FSM holds the given registers, time 112 on the input. -/
def withFsm (r : FsmRegs) : State := { start false with fsm := r, timeIn := some 112 }

/-- The payload and checksum of the end-to-end frame (95_test_vectors.md S1), in the buffer. -/
def e2e : Memory := [(0, 1), (1, 2), (2, 3), (3, 4), (4, 0x10)]

/-! ## Well-formedness and decoding (30_encoding.md R62 to R66) -/

theorem test_rate_query_operand_fits : (Instr.rateQuery (2 ^ 32 - 1)).WellFormed (at10k false) = true := by decide

theorem test_rate_query_operand_too_wide : (Instr.rateQuery (2 ^ 32)).WellFormed (at10k false) = false := by decide

theorem test_decode_symbols :
    decode (at10k true) ⟨.sym8, 0b00000000⟩ = .ok .sym0
      ∧ decode (at10k true) ⟨.sym8, 0b00000001⟩ = .ok .sym1
      ∧ decode (at10k true) ⟨.sym8, 0b00000011⟩ = .ok (.symInvalid02 0b1)
      ∧ decode (at10k true) ⟨.sym8, 0b00000110⟩ = .ok (.symInvalid04 0b10)
      ∧ decode (at10k true) ⟨.sym8, 0b00001101⟩ = .ok (.symInvalid08 0b101)
      ∧ decode (at10k true) ⟨.sym8, 0b00011001⟩ = .ok (.symInvalid10 0b1001)
      ∧ decode (at10k true) ⟨.sym8, 0b00110010⟩ = .ok (.symInvalid20 0b10010)
      ∧ decode (at10k true) ⟨.sym8, 0b01100001⟩ = .ok (.symInvalid40 0b100001)
      ∧ decode (at10k true) ⟨.sym8, 0b10000001⟩ = .ok (.symInvalid80 0b0000001) := ⟨rfl, rfl, rfl, rfl, rfl, rfl, rfl, rfl, rfl⟩

theorem test_decode_other_ports :
    decode (at10k true) ⟨.bit1, 0b0⟩ = .ok .fbit0 ∧ decode (at10k true) ⟨.bit1, 0b1⟩ = .ok .fbit1
      ∧ decode (at10k true) ⟨.rateq, 0b1100100⟩ = .ok (.rateQuery 100)
      ∧ decode (at10k true) ⟨.rst1, 0b1⟩ = .ok .reset := ⟨rfl, rfl, rfl, rfl⟩

theorem test_decode_refuses :
    decode (at10k true) ⟨.sym8, 256⟩ = .error .wordTooWide ∧ decode (at10k true) ⟨.bit1, 2⟩ = .error .notABit
      ∧ decode (at10k true) ⟨.rateq, 2 ^ 32⟩ = .error .wordTooWide
      ∧ decode (at10k true) ⟨.rst1, 0⟩ = .error .resetNotAsserted := ⟨rfl, rfl, rfl, rfl⟩

/-- The host's question (entry 6): the word of a row is decoded, and the step after reset runs it. -/
theorem test_table_words :
    decodeTableWord 8 0x01 = some .sym1 ∧ decodeTableWord 8 0xFF = some (.symInvalid80 0x7F)
      ∧ decodeTableWord 1 1 = some .fbit1 ∧ decodeTableWord 32 100 = some (.rateQuery 100) := ⟨rfl, rfl, rfl, rfl⟩

theorem test_first_step_runs_the_word :
    (nextOf (step (State.reset.withFetchWord 8 0x01))).map (·.ptd) = some ⟨1, 0⟩
      ∧ (nextOf (step (State.reset.withFetchWord 1 0))).map (·.fsm.nbits) = some 1
      ∧ (nextOf (step (State.reset.withFetchWord 8 0x02))).map (·.out.ptdEvt) = some .invalidSymbol
      ∧ (nextOf (step (State.reset.withFetchWord 32 0))).map (·.trace.consumed) = some 0 := ⟨rfl, rfl, rfl, rfl⟩

/-! ## The pulse-timing decoder (95_test_vectors.md section 2) -/

theorem test_sym0_counts_after_a_high_run :
    ptdAfter 0 0 .sym0 = some (⟨0, 0⟩, none, .noEvent) ∧ ptdAfter 4 2 .sym0 = some (⟨4, 3⟩, none, .noEvent) := by
  decide

theorem test_sym1_extends_the_high_run :
    ptdAfter 0 0 .sym1 = some (⟨1, 0⟩, none, .noEvent) ∧ ptdAfter 4 0 .sym1 = some (⟨5, 0⟩, none, .noEvent) := by
  decide

theorem test_sym1_completes_a_period :
    ptdAfter 4 4 .sym1 = some (⟨1, 0⟩, some 0, .bit0) ∧ ptdAfter 6 6 .sym1 = some (⟨1, 0⟩, some 1, .bit1)
      ∧ ptdAfter 4 20 .sym1 = some (⟨1, 0⟩, none, .eot) ∧ ptdAfter 2 3 .sym1 = some (⟨1, 0⟩, none, .invalidTiming) := by
  decide

theorem test_invalid_symbols_are_ignored :
    ptdAfter 3 2 (decodeSymbol 0x07) = some (⟨3, 2⟩, none, .invalidSymbol)
      ∧ ptdAfter 0 0 (decodeSymbol 0xFF) = some (⟨0, 0⟩, none, .invalidSymbol)
      ∧ ptdAfter 3 2 (decodeSymbol 0x02) = some (⟨3, 2⟩, none, .invalidSymbol) := by decide

/-- Section 2.1: the window edges at 10 kHz. -/
theorem test_classification_at_10k :
    [(3, 3), (5, 5), (6, 4), (4, 6), (7, 4), (7, 7), (7, 8), (3, 7), (5, 9), (2, 3), (3, 2), (6, 3), (10, 2)].map
        (fun c => classify 10000 c.1 c.2)
      = [.bit0, .bit0, .bit0, .bit0, .bit1, .bit1, .invalid, .eot, .eot, .invalid, .invalid, .invalid, .invalid] := by
  decide

/-- Section 2.1: the window edges at 1 MHz. -/
theorem test_classification_at_1M :
    [(299, 300), (300, 300), (500, 500), (501, 500), (625, 375), (626, 374), (712, 713), (713, 713), (891, 535),
        (500, 300), (500, 1000), (501, 1000)].map (fun c => classify 1000000 c.1 c.2)
      = [.invalid, .bit0, .bit0, .bit1, .bit0, .bit1, .bit1, .invalid, .invalid, .bit0, .eot, .invalid] := by decide

/-- 93_implementation_defined.md section 3: a rate whose sample duration is no whole number of ns. -/
theorem test_classification_at_30k :
    [(9, 9), (15, 15), (21, 21), (9, 30)].map (fun c => classify 30000 c.1 c.2) = [.bit0, .bit0, .bit1, .eot] := by
  decide

/-- Section 2.2: CNT_W = 4 saturates `lc` at 15. -/
theorem test_counter_saturates :
    (ptdTransaction ⟨10000, 4, 64, 32, false⟩ ⟨4, 15⟩ 0).regs = ⟨4, 15⟩ ∧ classify 10000 4 15 = .eot := by decide

/-- PROG4's chunk calls of capacity 1: each stops right after the symbol that emits. -/
theorem test_chunk_stops_at_its_capacity :
    let syms := [PtdToken.low 3, .high 4, .low 4, .high 6, .low 6, .symbol 7, .high 4].flatMap PtdToken.symbols
    consumeChunk (at10k false) ⟨0, 0⟩ syms 1 = ⟨12, [0], ⟨1, 0⟩⟩
      ∧ consumeChunk (at10k false) ⟨1, 0⟩ (syms.drop 12) 1 = ⟨13, [1], ⟨1, 0⟩⟩
      ∧ consumeChunk (at10k false) ⟨0, 0⟩ syms 0 = ⟨0, [], ⟨0, 0⟩⟩ := by decide

/-! ## The frame state machine (95_test_vectors.md section 3.1, rows F1 to F21) -/

theorem test_fbit0_rows :
    fsmAfter 0 (fsm .reset 5 3 1 5 []) = some (fsm .sync 1 0 0 0 [], .noEvent)
      ∧ fsmAfter 0 (fsm .sync 11 0 0 0 []) = some (fsm .sync 12 0 0 0 [], .noEvent)
      ∧ fsmAfter 0 (fsm .sync 15 0 0 0 []) = some (fsm .sync 15 0 0 0 [], .noEvent)
      ∧ fsmAfter 0 (fsm .head 7 0 1 0 [(0, 0x7F)]) = some (fsm .head 8 0 1 0 [(0, 0xFE)], .noEvent)
      ∧ fsmAfter 0 (fsm .head 8 0 1 0 [(0, 1)]) = some (fsm .reset 8 0 1 0 [(0, 1)], .parityError)
      ∧ fsmAfter 0 (fsm .head 8 2 0 0 []) = some (fsm .head 0 3 0 0 [], .noEvent)
      ∧ fsmAfter 0 (fsm .tail 8 4 0 6 []) = some (fsm .tail 0 5 0 6 [], .noEvent)
      ∧ fsmAfter 0 (fsm .tail 8 4 1 6 []) = some (fsm .reset 8 4 1 6 [], .parityError)
      ∧ fsmAfter 0 (fsm .tail 8 4 1 5 e2e) = some (fsm .reset 8 4 1 5 e2e, .parityError) := by decide

theorem test_fbit1_rows :
    fsmAfter 1 (fsm .reset 5 3 1 5 []) = some (fsm .reset 0 0 0 0 [], .syncFail)
      ∧ fsmAfter 1 { fsm .sync 12 0 0 0 [] with ts := 7 } = some (fsm .head 0 0 0 0 [], .syncOk)
      ∧ fsmAfter 1 (fsm .sync 11 0 0 0 []) = some (fsm .reset 11 0 0 0 [], .syncFail)
      ∧ fsmAfter 1 (fsm .head 0 0 0 0 [(0, 0xA5)]) = some (fsm .head 1 0 1 0 [(0, 0x4B)], .noEvent)
      ∧ fsmAfter 1 (fsm .head 8 0 1 0 [(0, 1)]) = some (fsm .head 0 1 0 0 [(0, 1)], .noEvent)
      ∧ fsmAfter 1 (fsm .head 8 2 0 0 []) = some (fsm .reset 8 2 0 0 [], .parityError)
      ∧ fsmAfter 1 (fsm .head 8 3 1 0 [(3, 4)]) = some (fsm .tail 0 4 0 5 [(3, 4)], .noEvent)
      ∧ fsmAfter 1 (fsm .head 8 3 1 0 [(3, 0x20)]) = some (fsm .tail 0 4 0 6 [(3, 0x20)], .noEvent)
      ∧ fsmAfter 1 (fsm .tail 3 4 0 5 []) = some (fsm .tail 4 4 1 5 [(4, 1)], .noEvent)
      ∧ fsmAfter 1 (fsm .tail 8 4 1 5 e2e) = some (fsm .reset 0 4 0 5 e2e, .delivered) := by decide

/-- F19, F20, section 3.3: what the checksum accepts. -/
theorem test_checksum_rows :
    ((nextOf (exec .fbit1 (withFsm (fsm .tail 8 4 1 5 e2e)))).map (·.out.pkt)) = some (some ⟨[1, 2, 3, 4], 112⟩)
      ∧ checksum e2e 4 = 0x10
      ∧ [0x10, 0x11, 0x0F, 0x12, 0x0E, 0x20].map (fun c => checksumAccepts c 0x10)
          = [true, true, true, false, false, false]
      ∧ checksumAccepts 0xFF 0x00 = false ∧ checksumAccepts 0x00 0xFF = false ∧ checksumAccepts 0x01 0x00 = true := by
  decide

/-- PROG1's encoding: 58 bits. -/
theorem test_prog1_encoding :
    [FsmToken.sync, .byte 1, .byte 2, .byte 3, .byte 4, .byte 0x10].flatMap FsmToken.bits
      = frameBits 12 [1, 2, 3, 4] 0x10 ∧ (frameBits 12 [1, 2, 3, 4] 0x10).length = 58 := by decide

/-- R76, R78: the edges of `PULSE 4,4` with a high symbol after it. -/
theorem test_stimulus_edges :
    ((PtdToken.pulse 4 4).symbols ++ (PtdToken.high 1).symbols).length = 9
      ∧ (symbolEdges id 0 (PtdToken.high 1).symbols).map (fun e => e.words (at10k false)) = [[⟨.sym8, 1⟩]]
      ∧ (bitEdges id 0 [1]).map (fun e => e.words (at10k false)) = [[⟨.bit1, 1⟩]]
      ∧ numbered FsmEvent.noEvent 0 [.noEvent, .syncOk] = [(1, .syncOk)] := by decide

/-! ## The rate query and reset (95_test_vectors.md sections 2.3 and 3.5) -/

theorem test_rate_query_answers :
    (nextOf (exec (.rateQuery 100) (start false))).map (·.rateNin) = some 1500
      ∧ [10000, 30000, 48000, 100000, 250000, 1000000, 2000000].map (fun r => rateK ⟨r, 32, 64, 32, false⟩)
          = [15, 43, 69, 143, 357, 1425, 2850] := by decide

theorem test_reset_discards_the_pending_period :
    (nextOf (exec .reset { start false with ptd := ⟨4, 4⟩ })).map (fun t => (t.ptd, t.out.ptdEvt, t.trace.bits))
      = some (⟨0, 0⟩, .noEvent, []) := rfl

/-- R9 (entry 2): the greatest rate the default counter width admits. -/
theorem test_max_rate :
    (⟨Config.maxRate, 32, 64, 32, true⟩ : Params).Legal ∧ ¬ (⟨Config.maxRate + 1, 32, 64, 32, true⟩ : Params).Legal := by
  decide

/-- R153: with `rst = 1` no symbol or bit is taken on the edge. -/
theorem test_reset_edge_takes_nothing_else :
    ({ Pins.idle with rst := true, symValid := true, bitReady := true, fbitValid := true }).words (at10k false)
      = [⟨.rst1, 1⟩] := by decide

/-! ## Every hypothesis can be met -/

theorem witness_encoded_instruction : (Instr.rateQuery (2 ^ 32 - 1)).WellFormed (at10k true) = true := by decide

theorem witness_decoded_word : decode (at10k true) ⟨.sym8, 0xFF⟩ = .ok (.symInvalid80 0x7F) := rfl

theorem witness_table_words : (at10k true).noutW = 32 := rfl

theorem witness_high_symbol : (start true).ptd.lc = 0 := rfl

/-- One period of each class, at the edges of its window. -/
theorem witness_completed_period :
    (at10k false).composed = false ∧ 1 ≤ (at10k false).sampleRateHz
      ∧ classify (at10k false).sampleRateHz 3 3 = .bit0 ∧ classify (at10k false).sampleRateHz 7 7 = .bit1
      ∧ classify (at10k false).sampleRateHz 3 7 = .eot ∧ classify (at10k false).sampleRateHz 7 8 = .invalid := by decide

/-- The same by exact times: the statement's four cases. -/
theorem witness_completed_period_by_time :
    classifyByTime 10000 3 3 = .bit0 ∧ classifyByTime 10000 7 7 = .bit1 ∧ classifyByTime 10000 3 7 = .eot
      ∧ classifyByTime 10000 7 8 = .invalid := by
  norm_num [classifyByTime, sampleDuration, abs_of_nonneg, abs_of_neg]

theorem witness_completed_period_state :
    let s : State := { start false with ptd := ⟨3, 3⟩ }
    s.params.composed = false ∧ 1 ≤ s.params.sampleRateHz ∧ 0 < s.ptd.lc := by decide

theorem witness_composed_symbol :
    let s : State := { start true with ptd := ⟨7, 7⟩ }
    s.params.composed = true ∧ 1 ≤ s.params.sampleRateHz ∧ 0 < s.ptd.lc := by decide

theorem witness_integer_classification : 1 ≤ (at10k true).sampleRateHz := by decide

theorem witness_legal_parameters :
    (at10k true).Legal ∧ (⟨10000, 4, 64, 32, false⟩ : Params).Legal ∧ (100 : Nat) < 2 ^ (at10k true).noutW := by
  decide

/-- Property P1 after reset, at a later period's start, and on a run of 40 samples held saturated at CNT_MAX = 15. -/
theorem witness_pulse :
    let p : Params := ⟨10000, 4, 64, 32, false⟩
    (p.Legal ∧ (⟨0, 0⟩ : PtdRegs).lc = 0 ∧ min 0 p.cntMax = min 0 p.cntMax ∧ 1 ≤ 0 + 4 ∧ 1 ≤ 40 ∧ 1 ≤ 1)
      ∧ ((⟨1, 0⟩ : PtdRegs).lc = 0 ∧ min 1 p.cntMax = min 1 p.cntMax ∧ 1 ≤ 1 + 3)
      ∧ (⟨15, 0⟩ : PtdRegs).lc = 0 ∧ min 15 p.cntMax = min 40 p.cntMax ∧ 1 ≤ 40 + 0 := by decide

theorem witness_chunk_accounts :
    (consumeChunk (at10k false) ⟨4, 4⟩ [1, 0] 1).consumed < [1, 0].length := by decide

theorem witness_chunk_boundary :
    (consumeChunk (at10k false) ⟨4, 4⟩ [1] 1).consumed = [(1 : Byte)].length := by decide

/-- A low symbol and an invalid one before the first high symbol. -/
theorem witness_leading_lows :
    1 ≤ (at10k false).cntW ∧ 1 ≤ 1 ∧ ∀ s ∈ ([0, 7] : List Byte), s ≠ 1 := by decide

/-- `H2 X07 H2` with just the room it may need. -/
theorem witness_invalid_in_a_run : ([1, 1, 7, 1, 1] : List Byte).length ≤ 5 := by decide

theorem witness_chunk_run : (start false).params.composed = false := rfl

theorem witness_reset_cascade : (withFsm (fsm .reset 8 2 1 0 [(0, 1)])).fsm.st = .reset := rfl

theorem witness_zero_in_sync :
    (withFsm (fsm .sync 0 0 0 0 [])).fsm.st = .sync ∧ (withFsm (fsm .sync 15 0 0 0 [])).fsm.st = .sync := by decide

theorem witness_twelve_zeros :
    (withFsm (fsm .sync 12 0 0 0 [])).fsm.st = .sync ∧ 12 ≤ (withFsm (fsm .sync 12 0 0 0 [])).fsm.nbits.toNat
      ∧ (withFsm (fsm .sync 12 0 0 0 [])).timeIn = some 112 := by decide

theorem witness_unstable_time :
    let s : State := { withFsm (fsm .sync 12 0 0 0 []) with timeIn := none }
    s.fsm.st = .sync ∧ 12 ≤ s.fsm.nbits.toNat ∧ s.timeIn = none := by decide

theorem witness_few_zeros :
    (withFsm (fsm .sync 11 0 0 0 [])).fsm.st = .sync ∧ (withFsm (fsm .sync 11 0 0 0 [])).fsm.nbits.toNat < 12 := by
  decide

/-- A data bit: at HEAD's last byte, and at TAIL's last byte of an extended frame. -/
theorem witness_data_bit :
    let h := (withFsm (fsm .head 7 3 0 0 [])).fsm
    let t := (withFsm (fsm .tail 0 5 0 6 [])).fsm
    (h.nbits.toNat < 8 ∧ h.st = .head ∧ h.nbytes.toNat ≤ 3)
      ∧ t.nbits.toNat < 8 ∧ t.st = .tail ∧ t.nbytes.toNat < t.lastByte.toNat ∧ t.lastByte.toNat ≤ 6 := by decide

/-- An even group: before HEAD's last byte, and before TAIL's. -/
theorem witness_even_group :
    let h := (withFsm (fsm .head 8 2 1 0 [])).fsm
    let t := (withFsm (fsm .tail 8 4 0 6 [])).fsm
    (h.nbits.toNat = 8 ∧ (h.parity.toNat + (1 : Bit).toNat) % 2 = 0 ∧ h.st = .head ∧ h.nbytes.toNat < 3)
      ∧ t.nbits.toNat = 8 ∧ (t.parity.toNat + (0 : Bit).toNat) % 2 = 0 ∧ t.st = .tail
      ∧ t.nbytes.toNat + 1 < t.lastByte.toNat := by decide

theorem witness_odd_group :
    let h := (withFsm (fsm .head 8 2 0 0 [])).fsm
    let t := (withFsm (fsm .tail 8 4 1 5 e2e)).fsm
    (h.st = .head ∧ h.nbits.toNat = 8 ∧ (h.parity.toNat + (1 : Bit).toNat) % 2 = 1)
      ∧ t.st = .tail ∧ t.nbits.toNat = 8 ∧ (t.parity.toNat + (0 : Bit).toNat) % 2 = 1 := by decide

/-- A command byte with bit 5 clear, and one with it set. -/
theorem witness_command_byte :
    let c := (withFsm (fsm .head 8 3 1 0 [(3, 4)])).fsm
    let x := (withFsm (fsm .head 8 3 1 0 [(3, 0x20)])).fsm
    (c.st = .head ∧ c.nbits.toNat = 8 ∧ (c.parity.toNat + (1 : Bit).toNat) % 2 = 0 ∧ c.nbytes.toNat = 3
        ∧ (c.pkt.read 3).toNat / 2 ^ 5 % 2 = 0)
      ∧ x.st = .head ∧ x.nbits.toNat = 8 ∧ (x.parity.toNat + (1 : Bit).toNat) % 2 = 0 ∧ x.nbytes.toNat = 3
      ∧ (x.pkt.read 3).toNat / 2 ^ 5 % 2 = 1 := by decide

/-- Frames of four and of five payload bytes; the first two of one are accepted and rejected. -/
theorem witness_complete_frame :
    let a := (withFsm (fsm .tail 8 4 1 5 e2e)).fsm
    let r := (withFsm (fsm .tail 8 4 1 5 (e2e.write 4 0x20))).fsm
    let x := (withFsm (fsm .tail 8 5 0 6 [(0, 0x12), (1, 0x34), (2, 1), (3, 0x31), (4, 5), (5, 0x84)])).fsm
    (a.st = .tail ∧ a.nbits.toNat = 8 ∧ (a.parity.toNat + (1 : Bit).toNat) % 2 = 0 ∧ a.nbytes.toNat = 4
        ∧ a.lastByte.toNat = 5 ∧ checksumAccepts (a.pkt.read 4) (checksum a.pkt 4) = true)
      ∧ (r.st = .tail ∧ r.nbits.toNat = 8 ∧ (r.parity.toNat + (1 : Bit).toNat) % 2 = 0 ∧ r.nbytes.toNat = 4
        ∧ r.lastByte.toNat = 5 ∧ checksumAccepts (r.pkt.read 4) (checksum r.pkt 4) = false)
      ∧ x.st = .tail ∧ x.nbits.toNat = 8 ∧ (x.parity.toNat + (0 : Bit).toNat) % 2 = 0 ∧ x.nbytes.toNat = 5
      ∧ x.lastByte.toNat = 6 ∧ checksumAccepts (x.pkt.read 5) (checksum x.pkt 5) = true := by decide

/-- The invariant in each ParserState. -/
theorem witness_fsm_invariant :
    (fsm .reset 8 2 1 0 [(0, 1)]).Inv (at10k false) ∧ (fsm .sync 15 0 0 0 e2e).Inv (at10k false)
      ∧ (fsm .head 8 3 1 0 [(3, 4)]).Inv (at10k false) ∧ (fsm .tail 8 4 1 5 e2e).Inv (at10k false)
      ∧ (fsm .tail 8 5 1 6 e2e).Inv (at10k false) := ⟨by decide, by decide, by decide, by decide, by decide⟩

theorem witness_bit_transaction_frame :
    (withFsm (fsm .tail 8 4 1 5 e2e)).fsm.Inv (withFsm (fsm .tail 8 4 1 5 e2e)).params
      ∧ ∃ t, exec (bitInstr 1) (withFsm (fsm .tail 8 4 1 5 e2e)) = .next t := ⟨by decide, _, rfl⟩

theorem witness_eight_data_bits :
    let h := fsm .head 0 3 0 0 e2e
    let t := fsm .tail 0 5 0 6 e2e
    (h.pkt.Wf ∧ h.nbits = 0 ∧ h.parity = 0 ∧ h.st = .head ∧ h.nbytes.toNat ≤ 3)
      ∧ t.pkt.Wf ∧ t.nbits = 0 ∧ t.parity = 0 ∧ t.st = .tail ∧ t.nbytes.toNat < t.lastByte.toNat
      ∧ t.lastByte.toNat ≤ 6 := by decide

theorem witness_odd_group_of_nine :
    (fsm .head 0 3 0 0 []).Inv (at10k false) ∧ (fsm .tail 0 5 0 6 e2e).Inv (at10k false)
      ∧ ([0, 0, 0, 0, 0, 0, 1, 0, 0] : List Bit).length = 9 ∧ sumMod2 [0, 0, 0, 0, 0, 0, 1, 0, 0] = 1 :=
  ⟨by decide, by decide, rfl, rfl⟩

theorem witness_short_preamble : (fsm .reset 8 2 1 0 []).st = .reset ∧ 11 < 12 := by decide

/-- A frame of four payload bytes and one of five, after the shortest preamble. -/
theorem witness_frame :
    (fsm .reset 0 4 0 5 e2e).pkt.Wf ∧ (fsm .reset 0 4 0 5 e2e).st = .reset ∧ 12 ≤ 12
      ∧ FitsCommand [1, 2, 3, 4] ∧ FitsCommand [0x12, 0x34, 1, 0x31, 5] := by
  refine ⟨by decide, rfl, by decide, .inl ⟨rfl, rfl⟩, .inr ⟨rfl, rfl⟩⟩

theorem witness_bit_list : consumeBits (fsm .reset 0 0 0 0 []) [(1, 0)] = some ⟨fsm .reset 0 0 0 0 [], [.syncFail], []⟩ := by
  decide

/-- A list of bits the call answers, and one it does not (a register state no run reaches). -/
theorem witness_bit_call :
    (∃ c, consumeBits (start false).fsm [(0, 7), (1, 8)] = some c)
      ∧ consumeBits (fsm .head 0 7 0 0 []) [(0, 7)] = none := ⟨⟨_, rfl⟩, rfl⟩

/-- Two FSMs alike but for the stale bits of the byte in progress. -/
theorem witness_stale_bytes :
    let a := fsm .head 1 0 1 0 [(0, 0x4B), (5, 9)]
    let b := fsm .head 1 0 1 0 [(0, 1)]
    a.Inv (at10k false) ∧ b.Inv (at10k false) ∧ SameFrame a b := by
  refine ⟨by decide, by decide, rfl, by decide, fun _ => ⟨rfl, rfl, rfl, rfl, rfl, fun i h => absurd h ?_, rfl⟩⟩
  exact Nat.not_lt_zero i

theorem witness_stale_bytes_in_reset :
    let a := fsm .reset 8 2 1 0 e2e
    let b := { fsm .reset 0 4 0 5 [] with ts := 0 }
    a.Inv (at10k false) ∧ b.Inv (at10k false) ∧ a.st = .reset ∧ b.st = .reset
      ∧ ∀ c ∈ [((1 : Bit), 2 ^ 64 - 1)], c.2 < 2 ^ (at10k false).tsW :=
  ⟨by decide, by decide, rfl, rfl, by decide⟩

/-- A state that meets the invariant, with a bit still to come, whose step delivers. -/
def delivering : State :=
  { withFsm (fsm .tail 8 4 1 5 e2e) with stimulus := [{ Pins.idle with fbitValid := true, fbitData := 1 }] }

theorem witness_invariant : delivering.Inv ∧ ∃ t, step delivering = .next t := ⟨by decide, _, rfl⟩

theorem witness_parameters : ∃ t, step (start true) = .next t := ⟨_, rfl⟩

theorem witness_delivery :
    delivering.Inv ∧ ∃ t, step delivering = .next t ∧ t.out.pkt = some ⟨[1, 2, 3, 4], 112⟩ :=
  ⟨by decide, _, rfl, rfl⟩

/-- One word on the edge, and a symbol with a bit after it. -/
theorem witness_step_runs :
    delivering.nextEdge.words delivering.params = [⟨.bit1, 1⟩]
      ∧ decode delivering.params ⟨.bit1, 1⟩ = .ok .fbit1
      ∧ ({ Pins.idle with symValid := true, bitReady := true, fbitValid := true }).words (at10k false)
          = [⟨.sym8, 0⟩, ⟨.bit1, 0⟩]
      ∧ decode (at10k false) ⟨.sym8, 0⟩ = .ok .sym0 := ⟨rfl, rfl, rfl, rfl⟩

theorem witness_reset_edge :
    let e : Pins := { Pins.idle with rst := true, symValid := true, bitReady := true }
    let s : State := { start true with stimulus := [e] }
    s.stimulus = e :: [] ∧ e.rst = true ∧ e.rateNout = none := by decide

theorem witness_idle_edge : (start true).nextEdge.words (start true).params = [] := by decide

theorem witness_symbol_waits :
    let e : Pins := { Pins.idle with symValid := true, symData := 1 }
    let s : State := { start false with stimulus := [e] }
    s.stimulus = e :: [] ∧ s.params.composed = false ∧ e.symValid = true ∧ e.bitReady = false ∧ e.rst = false
      ∧ e.fbitValid = false ∧ e.rateNout = none := by decide

theorem witness_separate_units :
    (start false).params.composed = false ∧ (encode .sym1).format = .sym8
      ∧ (∃ t, exec .sym1 (start false) = .next t) ∧ ∃ u, exec (bitInstr 1) (start false) = .next u :=
  ⟨rfl, rfl, ⟨_, rfl⟩, _, rfl⟩

/-- A composed step that emits a bit, and one whose edge resets. -/
theorem witness_composed_bit :
    let s : State := { start true with ptd := ⟨4, 4⟩, stimulus := symbolEdges id 0 [1] }
    s.params.composed = true ∧ s.nextEdge.rst = false ∧ s.nextEdge.symValid = true
      ∧ (nextOf (step s)).map (fun t => (t.trace.bits, t.trace.fsmEvents)) = some ([0], [.noEvent]) := by
  decide

theorem witness_composed_reset :
    let s : State := { start true with ptd := ⟨4, 4⟩, stimulus := [{ Pins.idle with rst := true, symValid := true }] }
    s.params.composed = true ∧ s.nextEdge.rst = true ∧ ∃ t, step s = .next t := ⟨rfl, rfl, _, rfl⟩

/-- A symbol that emits a bit, and one that emits none. -/
theorem witness_bit_port :
    (nextOf (exec (decodeSymbol 1) { start false with ptd := ⟨6, 6⟩ })).map (fun t => (t.bitValid, t.bitData)) = some (true, 1)
      ∧ (ptdTransaction (at10k false) ⟨6, 6⟩ 1).bit = some 1
      ∧ (nextOf (exec (decodeSymbol 0) (start false))).map (·.bitValid) = some false := by decide

theorem witness_rate_port : (start false).params.Legal ∧ 2 ^ 32 - 1 < 2 ^ (start false).params.noutW := by decide

theorem witness_one_event : (encode .sym1).format = .sym8 ∧ ∃ t, exec .sym1 (start true) = .next t := ⟨rfl, _, rfl⟩

theorem witness_sink_port :
    let s : State := { start true with out := { Outputs.quiet with pkt := some ⟨[1, 2, 3, 4, 5], 112⟩ } }
    s.out.pkt = some ⟨[1, 2, 3, 4, 5], 112⟩ ∧ ([1, 2, 3, 4, 5] : List Byte).length ≤ 5 := by decide

end Sys2Proof.Tests
end

section
/-! The rate constant and the width of the rate query's answer (00_scope.md R11, 40_pulse_timing.md R99, R100). -/

namespace Sys2Proof.Machine

theorem ceilDiv_pos {n d : Nat} (hn : 0 < n) (hd : 0 < d) : 0 < ceilDiv n d :=
  Nat.div_pos (by omega) hd

theorem rateK_pos {p : Params} (hp : p.Legal) : 0 < rateK p := by
  obtain ⟨hrate, -⟩ := hp
  exact ceilDiv_pos (Nat.mul_pos (by decide) hrate) (by decide)

theorem rateK_lt_two_pow_rateKWidth (p : Params) : rateK p < 2 ^ rateKWidth p :=
  Nat.lt_log2_self

/-- K_W is the least width: one bit fewer does not hold RATE_K. -/
theorem two_pow_rateKWidth_pred_le_rateK {p : Params} (hp : p.Legal) : 2 ^ (rateKWidth p - 1) ≤ rateK p := by
  rw [rateKWidth, Nat.add_sub_cancel]
  exact Nat.log2_self_le (rateK_pos hp).ne'

/-- The product of an n_out of NOUT_W bits and RATE_K never overflows the port of R11. -/
theorem mul_rateK_lt_two_pow (p : Params) {nOut : Nat} (hn : nOut < 2 ^ p.noutW) :
    nOut * rateK p < 2 ^ (p.noutW + rateKWidth p) := by
  rw [Nat.pow_add]
  exact Nat.mul_lt_mul'' hn (rateK_lt_two_pow_rateKWidth p)

end Sys2Proof.Machine

namespace Sys2Proof.Proofs

open Sys2Proof.Machine

/-- Settles O38: both factors fit their widths, and K_W is one more than the binary logarithm of RATE_K, which a
legal instance's sample rate keeps positive. -/
theorem rateAnswerFitsItsPort : Obligations.RateAnswerFitsItsPort := by
  intro p nOut hp hn
  exact ⟨mul_rateK_lt_two_pow p hn, two_pow_rateKWidth_pred_le_rateK hp, rateK_lt_two_pow_rateKWidth p⟩

end Sys2Proof.Proofs
end

section
/-! What the operations and one edge do to the whole machine (10_state.md section 4, 70_reset_and_hazards.md R167): the
operations by the transaction they make, what each keeps, and the induction over an edge's words. -/

namespace Sys2Proof.Machine

/-! ## What a transaction and an operation can do -/

/-- A bit transaction answers exactly where the FSM does, with its step applied (10_state.md R38, R39). -/
theorem runBit_eq_next_iff {b : Bit} {s u : State} :
    runBit b s = .next u ↔ ∃ t, fsmTransaction b s.now s.fsm = some t ∧ s.applyFsm t = u := by
  unfold runBit
  cases fsmTransaction b s.now s.fsm <;> simp

/-- A symbol transaction is the PTD's step, and after it the emitted bit's transaction where the units are composed
(10_state.md R40). -/
theorem runSymbol_cases (t : PtdStep) (s : State) :
    runSymbol t s = .next (s.applyPtd t) ∨ ∃ b, t.bit = some b ∧ runSymbol t s = runBit b (s.applyPtd t) := by
  cases hc : s.params.composed with
  | false => exact .inl (runSymbol_separate t s hc)
  | true =>
    cases hb : t.bit with
    | none => exact .inl (runSymbol_noBit t s hb)
    | some b => exact .inr ⟨b, rfl, runSymbol_composed t s b hc hb⟩

/-- The FSM's part of a symbol transaction leaves the PTD's ports alone (10_state.md R33, R35). -/
theorem runSymbol_ptdPorts {t : PtdStep} {s u : State} (h : runSymbol t s = .next u) :
    u.out.bit = t.bit ∧ u.out.ptdEvt = t.event := by
  rcases runSymbol_cases t s with hr | ⟨b, -, hr⟩
  · cases hr.symm.trans h
    exact ⟨rfl, rfl⟩
  · obtain ⟨f, -, rfl⟩ := runBit_eq_next_iff.1 (hr.symm.trans h)
    exact ⟨rfl, rfl⟩

/-- Every operation is one of four transactions: a symbol's, a bit's, the rate query or the reset. -/
theorem exec_cases (i : Instr) (s : State) :
    (∃ x, exec i s = runSymbol (ptdTransaction s.params s.ptd x) s) ∨ (∃ b, exec i s = runBit b s)
      ∨ (∃ n, exec i s = .next { s with out := { s.out with rateNin := some n } })
      ∨ exec i s = .next s.applyReset := by
  cases i with
  | sym0 => exact .inl ⟨0, rfl⟩
  | sym1 => exact .inl ⟨1, rfl⟩
  | symInvalid02 | symInvalid04 | symInvalid08 | symInvalid10 | symInvalid20 | symInvalid40 | symInvalid80 =>
    exact .inl ⟨2, rfl⟩
  | fbit0 => exact .inr (.inl ⟨0, rfl⟩)
  | fbit1 => exact .inr (.inl ⟨1, rfl⟩)
  | rateQuery => exact .inr (.inr (.inl ⟨_, rfl⟩))
  | reset => exact .inr (.inr (.inr rfl))

/-! ## The induction over an edge's words -/

/-- What every operation keeps, the run of an edge's words keeps. -/
theorem runWords_induction {P : State → Prop} (hexec : ∀ i s t, P s → exec i s = .next t → P t)
    {words : List PortWord} {s t : State} (hs : P s) (h : runWords words s = .next t) : P t := by
  induction words generalizing s with
  | nil => cases h; exact hs
  | cons w rest ih =>
    cases hd : decode s.params w with
    | error e => simp [runWords, hd] at h
    | ok i =>
      rw [runWords_cons hd] at h
      cases he : exec i s with
      | next u => rw [he] at h; exact ih (hexec i s u hs he) h
      | fault f => simp [he] at h
      | refused r => simp [he] at h

/-- What holds once the edge is sampled and every operation keeps, holds after the step. -/
theorem step_induction {P : State → Prop} (hexec : ∀ i s t, P s → exec i s = .next t → P t) {s t : State}
    (hs : P (s.sample s.nextEdge)) (h : step s = .next t) : P t :=
  runWords_induction hexec hs (step_eq s ▸ h)

/-! ## The parameters -/

theorem exec_params {i : Instr} {s t : State} (h : exec i s = .next t) : t.params = s.params := by
  rcases exec_cases i s with ⟨x, he⟩ | ⟨b, he⟩ | ⟨n, he⟩ | he
  · rcases runSymbol_cases (ptdTransaction s.params s.ptd x) s with hr | ⟨b, -, hr⟩
    · cases (he.trans hr).symm.trans h; rfl
    · obtain ⟨f, -, rfl⟩ := runBit_eq_next_iff.1 ((he.trans hr).symm.trans h); rfl
  · obtain ⟨f, -, rfl⟩ := runBit_eq_next_iff.1 (he.symm.trans h); rfl
  · cases he.symm.trans h; rfl
  · cases he.symm.trans h; rfl

theorem step_params {s t : State} (h : step s = .next t) : t.params = s.params :=
  step_induction (P := fun u => u.params = s.params) (fun _ _ _ hu he => (exec_params he).trans hu) rfl h

/-! ## The invariant, and the delivery on the sink's port beside it -/

/-- A delivery on the sink's port is one the port can carry (10_state.md R38, 30_encoding.md R72). -/
def State.SinkFits (s : State) : Prop :=
  ∀ d, s.out.pkt = some d → (d.bytes.length = 4 ∨ d.bytes.length = 5) ∧ d.time < 2 ^ s.params.tsW

/-- The invariant that one edge's operations keep: the machine's, strengthened by the sink's port. -/
def State.Sound (s : State) : Prop := s.Inv ∧ s.SinkFits

/-- A port that carries no delivery carries none that does not fit. -/
theorem State.sinkFits_of_noDelivery {s : State} (h : s.out.pkt = none) : s.SinkFits := by
  simp [State.SinkFits, h]

/-- The time of a transaction fits its register, stable or not (10_state.md R37, R31). -/
theorem State.now_lt {s : State} (h : ∀ t ∈ s.timeIn, t < 2 ^ s.params.tsW) : s.now < 2 ^ s.params.tsW := by
  unfold State.now
  cases ht : s.timeIn with
  | some t => exact h t ht
  | none => exact Nat.mod_lt _ (by positivity)

theorem sample_sound {s : State} (e : Pins) (h : s.Inv) : (s.sample e).Sound := by
  obtain ⟨hp, hptd, hfsm, -⟩ := h
  have htime : ∀ t ∈ (s.sample e).timeIn, t < 2 ^ s.params.tsW := by
    intro t ht
    rw [sample_timeIn] at ht
    obtain ⟨n, -, rfl⟩ := Option.map_eq_some_iff.1 ht
    exact Nat.mod_lt _ (by positivity)
  exact ⟨⟨hp, hptd, hfsm, htime⟩, State.sinkFits_of_noDelivery rfl⟩

theorem applyPtd_sound {s : State} {t : PtdStep} (h : s.Sound) (ht : t.regs.Inv s.params) : (s.applyPtd t).Sound := by
  obtain ⟨⟨hp, -, hfsm, htime⟩, hsink⟩ := h
  exact ⟨⟨hp, ht, hfsm, htime⟩, hsink⟩

theorem applyReset_sound {s : State} (h : s.Sound) : s.applyReset.Sound := by
  obtain ⟨⟨hp, -, -, htime⟩, -⟩ := h
  have hfsm : s.applyReset.fsm.Inv s.params := by
    rw [applyReset_fsm]
    exact ⟨Memory.wf_ofBytes _, Nat.mod_lt _ (by positivity), by simp, .inl rfl, by simp, by simp, by simp⟩
  exact ⟨⟨hp, ⟨Nat.zero_le _, Nat.zero_le _, by simp⟩, hfsm, htime⟩, State.sinkFits_of_noDelivery rfl⟩

/-- A bit transaction answers, keeps the invariant, and a delivery of it has the registers' time
(41_frame_machine.md R130, R128). -/
theorem runBit_sound (b : Bit) {s : State} (h : s.Sound) : ∃ u, runBit b s = .next u ∧ u.Sound := by
  obtain ⟨⟨hp, hptd, hfsm, htime⟩, -⟩ := h
  obtain ⟨t, ht, hregs, hdel⟩ := fsmTransaction_inv s.params b s.now s.fsm hfsm (State.now_lt htime)
  obtain ⟨-, hts, -⟩ := hfsm
  have hsink : (s.applyFsm t).SinkFits := by
    intro d hd
    obtain ⟨hlen, hcaptured⟩ := hdel d hd
    exact ⟨hlen, hcaptured ▸ hts⟩
  exact ⟨s.applyFsm t, runBit_eq_next_iff.2 ⟨t, ht, rfl⟩, ⟨hp, hptd, hregs, htime⟩, hsink⟩

/-- A symbol transaction answers and keeps the invariant, in both wirings (10_state.md R23, R40). -/
theorem runSymbol_sound (x : Byte) {s : State} (h : s.Sound) :
    ∃ u, runSymbol (ptdTransaction s.params s.ptd x) s = .next u ∧ u.Sound := by
  have ⟨⟨hp, hptd, _⟩, _⟩ := h
  have hs := applyPtd_sound h (ptdTransaction_inv s.params s.ptd x hp hptd)
  rcases runSymbol_cases (ptdTransaction s.params s.ptd x) s with hr | ⟨b, -, hr⟩
  · exact ⟨_, hr, hs⟩
  · rw [hr]
    exact runBit_sound b hs

/-- Every operation answers and keeps the invariant. -/
theorem exec_sound (i : Instr) {s : State} (h : s.Sound) : ∃ u, exec i s = .next u ∧ u.Sound := by
  rcases exec_cases i s with ⟨x, he⟩ | ⟨b, he⟩ | ⟨n, he⟩ | he
  · rw [he]; exact runSymbol_sound x h
  · rw [he]; exact runBit_sound b h
  · exact ⟨_, he, h⟩
  · exact ⟨_, he, applyReset_sound h⟩

/-- After a step from the machine's invariant, the strengthened one holds. -/
theorem step_sound {s t : State} (hs : s.Inv) (h : step s = .next t) : t.Sound := by
  refine step_induction (P := State.Sound) (fun i u v hu he => ?_) (sample_sound _ hs) h
  obtain ⟨w, hw, hsound⟩ := exec_sound i hu
  cases hw.symm.trans he
  exact hsound

/-- The state after reset meets the invariant, whatever the legal parameters (10_state.md R20). -/
theorem resetOf_inv {p : Params} (hp : p.Legal) : (State.resetOf p).Inv := by
  have hfsm : (State.resetOf p).fsm.Inv p :=
    ⟨Memory.wf_nil, show 0 < 2 ^ p.tsW by positivity, Nat.zero_le _, .inl rfl, nofun, nofun, nofun⟩
  exact ⟨hp, ⟨Nat.zero_le _, Nat.zero_le _, fun h => h⟩, hfsm, nofun⟩

/-- Every sample rate the reset state can hold is legal with its counter width (00_scope.md R7, R9). -/
theorem configParams_legal : Config.params.Legal := by
  have hle : Config.rateDraw % Config.maxRate + 1 ≤ Config.maxRate := Nat.mod_lt _ (by decide)
  refine ⟨Nat.le_add_left _ _, ?_⟩
  calc 1425000 * (Config.rateDraw % Config.maxRate + 1)
      ≤ 1425000 * Config.maxRate := Nat.mul_le_mul_left _ hle
    _ < Config.params.cntMax * 1000000000 := by decide

/-! ## What an edge presents -/

theorem mem_rateWords {p : Params} {e : Pins} {w : PortWord} :
    w ∈ e.rateWords p ↔ ∃ n, e.rateNout = some n ∧ w = ⟨.rateq, n % 2 ^ p.noutW⟩ := by
  unfold Pins.rateWords
  cases e.rateNout <;> simp

theorem symReady_eq_true_iff {p : Params} {e : Pins} :
    symReady p e = true ↔ e.rst = false ∧ (p.composed = true ∨ e.bitReady = true) := by
  simp [symReady]

theorem mem_symWords {p : Params} {e : Pins} {w : PortWord} :
    w ∈ e.symWords p ↔ e.symValid = true ∧ symReady p e = true ∧ w = ⟨.sym8, e.symData.toNat⟩ := by
  simp [Pins.symWords, and_assoc]

theorem mem_bitWords {p : Params} {e : Pins} {w : PortWord} :
    w ∈ e.bitWords p ↔ e.fbitValid = true ∧ p.composed = false ∧ w = ⟨.bit1, e.fbitData.toNat⟩ := by
  simp [Pins.bitWords, and_assoc]

/-! ## The rate constant as an exact ceiling -/

/-- `ceil(n / d)` in integers is the ceiling of the exact quotient (00_scope.md R13). -/
theorem ceilDiv_eq_natCeil (n : Nat) {d : Nat} (hd : 0 < d) : ceilDiv n d = ⌈(n : Rat) / d⌉₊ := by
  refine eq_of_forall_ge_iff fun c => ?_
  have hquot : (n : Rat) / d ≤ c ↔ n ≤ d * c := by
    rw [div_le_iff₀ (by exact_mod_cast hd), mul_comm]
    exact_mod_cast Iff.rfl
  rw [Nat.ceil_le, hquot, ceilDiv, Nat.div_le_iff_le_mul_add_pred hd, Nat.add_le_add_iff_right]

theorem rateK_eq_natCeil (p : Params) :
    rateK p = ⌈((1425000 * p.sampleRateHz : Nat) : Rat) / 1000000000⌉₊ := by
  rw [rateK, ceilDiv_eq_natCeil _ (by decide)]
  norm_num [bit1PeriodMax, nsPerS]

end Sys2Proof.Machine

namespace Sys2Proof.Proofs

open Sys2Proof.Machine

/-- Settles O40: the invariant, strengthened by the sink's port, is the edge's after sampling, and every operation keeps
it. -/
theorem invariantIsKeptByEveryStep : Obligations.InvariantIsKeptByEveryStep :=
  fun _ _ hs h => (step_sound hs h).1

/-- Settles O53: the strengthened invariant holds of the port after the step, and no step changes TS_W. -/
theorem deliveriesHoldFourOrFiveBytes : Obligations.DeliveriesHoldFourOrFiveBytes := by
  intro s t d hs h hd
  rw [← step_params h]
  exact (step_sound hs h).2 d hd

/-- Settles O41: the registers after reset meet the invariant with any legal parameters, and the reset's own are legal at
each rate its draw can give. -/
theorem invariantHoldsAfterReset : Obligations.InvariantHoldsAfterReset :=
  ⟨resetOf_inv configParams_legal, rfl, rfl, rfl, rfl, rfl, rfl, rfl, rfl, rfl, rfl, rfl⟩

/-- Settles O46: the words of the ports one after the other, with `rst` deciding between the reset's and the others. -/
theorem edgePresentsWhatItAccepts : Obligations.EdgePresentsWhatItAccepts := by
  intro p e w
  rw [Pins.words, List.mem_append, mem_rateWords]
  cases hrst : e.rst with
  | true => simp
  | false => simp [mem_symWords, mem_bitWords, symReady_eq_true_iff, hrst]

/-- Settles O54: at most five bytes are counted without loss by the three wires of the length. -/
theorem sinkPortCarriesTheDelivery : Obligations.SinkPortCarriesTheDelivery := by
  intro s d hd hlen
  have hwires : (BitVec.ofNat 3 d.bytes.length).toNat = d.bytes.length :=
    Nat.mod_eq_of_lt (by omega)
  refine ⟨by simp [State.pktValid, hd], by simpa [State.pktLen, hd] using hwires, by simp [State.pktTs, hd], ?_⟩
  intro i hi
  simp [State.pktByte, hd, hi]

/-- Settles O57: a symbol's operation is the PTD's step, whose ports the FSM's part leaves alone. -/
theorem bitPortCarriesTheEmittedBit : Obligations.BitPortCarriesTheEmittedBit := by
  intro x s t h
  rw [exec_decodeSymbol] at h
  obtain ⟨hbit, hevt⟩ := runSymbol_ptdPorts h
  refine ⟨?_, fun b hb => ?_, hevt⟩
  · rw [State.bitValid, hbit, Option.isSome_iff_exists]
  · rw [State.bitData, hbit, hb, Option.getD_some]

/-- Settles O58: the query's answer is n_out times RATE_K, the exact ceiling, and that product fits the port. -/
theorem ratePortCarriesTheAnswer : Obligations.RatePortCarriesTheAnswer := by
  intro s nOut
  refine ⟨_, rfl, ?_, fun _ hn => mul_rateK_lt_two_pow s.params hn⟩
  rw [← rateK_eq_natCeil]
  rfl

end Sys2Proof.Proofs
end

section
/-! The packet buffer under the bits of a frame (20_memory.md R47, R51, R60): what one bit of a group does to the registers,
two frame machines that differ only in stale bytes, and the eight data bits of a byte. -/

namespace Sys2Proof.Machine

/-! ## The registers after a bit of a group -/

section
variable (b : Bit) (r : FsmRegs)

@[simp] theorem withDataBit_st : (withDataBit b r).st = r.st := rfl
@[simp] theorem withDataBit_nbits : (withDataBit b r).nbits = BitVec.ofNat 4 (r.nbits.toNat + 1) := rfl
@[simp] theorem withDataBit_nbytes : (withDataBit b r).nbytes = r.nbytes := rfl
@[simp] theorem withDataBit_parity : (withDataBit b r).parity = r.parity + b := rfl
@[simp] theorem withDataBit_lastByte : (withDataBit b r).lastByte = r.lastByte := rfl
@[simp] theorem withDataBit_ts : (withDataBit b r).ts = r.ts := rfl

@[simp] theorem withClosedByte_st : (withClosedByte r).st = r.st := rfl
@[simp] theorem withClosedByte_nbits : (withClosedByte r).nbits = 0 := rfl
@[simp] theorem withClosedByte_nbytes : (withClosedByte r).nbytes = BitVec.ofNat 3 (r.nbytes.toNat + 1) := rfl
@[simp] theorem withClosedByte_parity : (withClosedByte r).parity = 0 := rfl
@[simp] theorem withClosedByte_lastByte : (withClosedByte r).lastByte = r.lastByte := rfl
@[simp] theorem withClosedByte_pkt : (withClosedByte r).pkt = r.pkt := rfl
@[simp] theorem withClosedByte_ts : (withClosedByte r).ts = r.ts := rfl

variable {b r}

/-- A data bit moves the byte in progress up by one place and enters at its end (20_memory.md R47). -/
theorem read_withDataBit_same (h : r.pkt.Wf) :
    (withDataBit b r).pkt.read r.nbytes.toNat = shiftIn (r.pkt.read r.nbytes.toNat) b :=
  Memory.read_write_same _ _ _ h.1

/-- A data bit writes no byte but the one in progress (20_memory.md R51). -/
theorem read_withDataBit_other (h : r.pkt.Wf) {i : Nat} (hi : i ≠ r.nbytes.toNat) :
    (withDataBit b r).pkt.read i = r.pkt.read i :=
  Memory.read_write_other _ _ _ _ hi h.1

/-- What a bit in HEAD does, by its place in its group (41_frame_machine.md R117 to R119). -/
theorem headBit_cases {p : Params} (b : Bit) (hr : r.Inv p) (hs : r.st = .head) :
    (r.nbits.toNat < 8 ∧ r.nbytes.toNat ≤ 3 ∧ headBit b r = some ⟨withDataBit b r, .noEvent, none⟩)
      ∨ (r.nbits.toNat = 8 ∧ (r.parity.toNat + b.toNat) % 2 = 1
          ∧ headBit b r = some ⟨r.toReset, .parityError, none⟩)
      ∨ (r.nbits.toNat = 8 ∧ (r.parity.toNat + b.toNat) % 2 = 0 ∧ r.nbytes.toNat < 3
          ∧ headBit b r = some ⟨withClosedByte r, .noEvent, none⟩)
      ∨ (r.nbits.toNat = 8 ∧ (r.parity.toNat + b.toNat) % 2 = 0 ∧ r.nbytes.toNat = 3
          ∧ headBit b r = some ⟨enterTail (withClosedByte r), .noEvent, none⟩) := by
  obtain ⟨-, -, -, -, -, hhead, -⟩ := hr
  obtain ⟨hbits, hbytes, -⟩ := hhead hs
  rcases Nat.lt_or_eq_of_le hbits with h8 | h8
  · exact .inl ⟨h8, hbytes, headBit_data b r h8.ne hbytes⟩
  rcases Nat.mod_two_eq_zero_or_one (r.parity.toNat + b.toNat) with hp | hp
  · rcases Nat.lt_or_eq_of_le hbytes with hn | hn
    · exact .inr (.inr (.inl ⟨h8, hp, hn, headBit_even b r h8 hp hn⟩))
    · exact .inr (.inr (.inr ⟨h8, hp, hn, headBit_command b r h8 hp hn⟩))
  · exact .inr (.inl ⟨h8, hp, headBit_odd b r h8 hp⟩)

/-- The answer to a complete frame: a delivery where the checksum byte is accepted, `st` to RESET
(41_frame_machine.md R125 to R127). -/
def completedFrame (r : FsmRegs) : FsmStep :=
  if checksumAccepts (r.pkt.read r.nbytes.toNat) (checksum r.pkt r.nbytes.toNat) then
    ⟨{ r with nbits := 0, parity := 0, st := .reset }, .delivered, some ⟨payload r.pkt r.nbytes.toNat, r.ts⟩⟩
  else ⟨{ r with nbits := 0, parity := 0, st := .reset }, .checksumFail, none⟩

/-- A complete frame's registers do not depend on the checksum's verdict. -/
@[simp] theorem completedFrame_regs (r : FsmRegs) :
    (completedFrame r).regs = { r with nbits := 0, parity := 0, st := .reset } := by
  unfold completedFrame; split_ifs <;> rfl

/-- What a bit in TAIL does, by its place in its group (41_frame_machine.md R121 to R127). -/
theorem tailBit_cases {p : Params} (b : Bit) (hr : r.Inv p) (hs : r.st = .tail) :
    (r.nbits.toNat < 8 ∧ r.nbytes.toNat < maxPktLen ∧ r.nbytes.toNat < r.lastByte.toNat
        ∧ tailBit b r = some ⟨withDataBit b r, .noEvent, none⟩)
      ∨ (r.nbits.toNat = 8 ∧ (r.parity.toNat + b.toNat) % 2 = 1
          ∧ tailBit b r = some ⟨r.toReset, .parityError, none⟩)
      ∨ (r.nbits.toNat = 8 ∧ (r.parity.toNat + b.toNat) % 2 = 0 ∧ r.nbytes.toNat + 1 < r.lastByte.toNat
          ∧ tailBit b r = some ⟨withClosedByte r, .noEvent, none⟩)
      ∨ (r.nbits.toNat = 8 ∧ (r.parity.toNat + b.toNat) % 2 = 0 ∧ r.nbytes.toNat < maxPktLen
          ∧ r.lastByte.toNat ≤ r.nbytes.toNat + 1 ∧ tailBit b r = some (completedFrame r)) := by
  obtain ⟨-, -, -, -, -, -, htail⟩ := hr
  obtain ⟨hbits, -, hlt, hlast⟩ := htail hs
  have hin : r.nbytes.toNat < maxPktLen := by
    have : r.lastByte.toNat ≤ maxPktLen := by rcases hlast with h | h <;> simp [h, maxPktLen]
    exact lt_of_lt_of_le hlt this
  rcases Nat.lt_or_eq_of_le hbits with h8 | h8
  · exact .inl ⟨h8, hin, hlt, tailBit_data b r h8.ne hin hlt⟩
  rcases Nat.mod_two_eq_zero_or_one (r.parity.toNat + b.toNat) with hp | hp
  · rcases Nat.lt_or_ge (r.nbytes.toNat + 1) r.lastByte.toNat with hn | hn
    · exact .inr (.inr (.inl ⟨h8, hp, hn, tailBit_even b r h8 hp hn⟩))
    · exact .inr (.inr (.inr ⟨h8, hp, hin, hn, tailBit_complete b r h8 hp hin hn⟩))
  · exact .inr (.inl ⟨h8, hp, tailBit_odd b r h8 hp⟩)

end

/-! ## Two frame machines within one frame -/

/-- Two FSMs that agree on everything the frame in progress has written: the last conjunct of `SameFrame`, the registers by
name (20_memory.md R60). -/
structure SameBytes (a b : FsmRegs) : Prop where
  nbits : a.nbits = b.nbits
  nbytes : a.nbytes = b.nbytes
  parity : a.parity = b.parity
  lastByte : a.lastByte = b.lastByte
  ts : a.ts = b.ts
  complete : ∀ i, i < a.nbytes.toNat → a.pkt.read i = b.pkt.read i
  partialByte : (a.pkt.read a.nbytes.toNat).toNat % 2 ^ a.nbits.toNat
    = (b.pkt.read b.nbytes.toNat).toNat % 2 ^ b.nbits.toNat

section
variable {a b : FsmRegs}

theorem sameFrame_of_reset (ha : a.st = .reset) (hb : b.st = .reset) : SameFrame a b :=
  ⟨ha.trans hb.symm, by simp [ha], by simp [ha]⟩

theorem sameFrame_of_sync (ha : a.st = .sync) (hb : b.st = .sync) (hn : a.nbits = b.nbits) : SameFrame a b :=
  ⟨ha.trans hb.symm, fun _ => hn, by simp [ha]⟩

theorem SameBytes.sameFrame (h : SameBytes a b) (hst : a.st = b.st) : SameFrame a b :=
  ⟨hst, fun _ => h.nbits, fun _ => ⟨h.nbits, h.nbytes, h.parity, h.lastByte, h.ts, h.complete, h.partialByte⟩⟩

theorem SameFrame.sameBytes (h : SameFrame a b) (hst : a.st = .head ∨ a.st = .tail) : SameBytes a b := by
  obtain ⟨-, -, hframe⟩ := h
  obtain ⟨hbits, hbytes, hparity, hlast, hts, hcomplete, hpartial⟩ := hframe hst
  exact ⟨hbits, hbytes, hparity, hlast, hts, hcomplete, hpartial⟩

/-- A frame has just begun: no byte of it is written, so the buffers may differ everywhere (41_frame_machine.md R114). -/
theorem sameBytes_of_start (hbits : a.nbits = 0 ∧ b.nbits = 0) (hbytes : a.nbytes = 0 ∧ b.nbytes = 0)
    (hparity : a.parity = b.parity) (hlast : a.lastByte = b.lastByte) (hts : a.ts = b.ts) : SameBytes a b where
  nbits := hbits.1.trans hbits.2.symm
  nbytes := hbytes.1.trans hbytes.2.symm
  parity := hparity
  lastByte := hlast
  ts := hts
  complete := by simp [hbytes.1]
  partialByte := by simp [hbits.1, hbits.2, Nat.mod_one]

/-- Shifting a bit in carries agreement on the low n bits to the low n + 1. -/
theorem shiftIn_mod_two_pow_congr {x y : Byte} {n : Nat} (bit : Bit) (hn : n < 8)
    (h : x.toNat % 2 ^ n = y.toNat % 2 ^ n) :
    (shiftIn x bit).toNat % 2 ^ (n + 1) = (shiftIn y bit).toNat % 2 ^ (n + 1) := by
  have hdvd : 2 ^ (n + 1) ∣ 256 := Nat.pow_dvd_pow 2 (show n + 1 ≤ 8 from hn)
  rw [shiftIn_toNat, shiftIn_toNat, Nat.mod_mod_of_dvd _ hdvd, Nat.mod_mod_of_dvd _ hdvd, Nat.pow_succ]
  exact Nat.ModEq.add_right _ (Nat.ModEq.mul_right' 2 h)

/-- One more data bit: of the byte in progress one more bit is the frame's own. -/
theorem SameBytes.withDataBit (h : SameBytes a b) (ha : a.pkt.Wf) (hb : b.pkt.Wf) (h8 : a.nbits.toNat < 8) (bit : Bit) :
    SameBytes (withDataBit bit a) (withDataBit bit b) where
  nbits := by simp [h.nbits]
  nbytes := h.nbytes
  parity := by simp [h.parity]
  lastByte := h.lastByte
  ts := h.ts
  complete := by
    intro i hi
    rw [withDataBit_nbytes] at hi
    rw [read_withDataBit_other ha hi.ne, read_withDataBit_other hb (h.nbytes ▸ hi.ne)]
    exact h.complete i hi
  partialByte := by
    have hbits : ∀ r : FsmRegs, r.nbits = a.nbits → (Machine.withDataBit bit r).nbits.toNat = a.nbits.toNat + 1 := by
      intro r hr
      rw [withDataBit_nbits, hr, toNat_succ_bit (by omega)]
    rw [hbits a rfl, hbits b h.nbits.symm, withDataBit_nbytes, withDataBit_nbytes,
      read_withDataBit_same ha, read_withDataBit_same hb]
    refine shiftIn_mod_two_pow_congr bit h8 ?_
    have := h.partialByte
    rwa [← h.nbits] at this

/-- After eight data bits the byte in progress is the frame's own, old bits and all (20_memory.md R60). -/
theorem SameBytes.read_nbytes (h : SameBytes a b) (h8 : a.nbits.toNat = 8) :
    a.pkt.read a.nbytes.toNat = b.pkt.read a.nbytes.toNat := by
  have hpartial := h.partialByte
  rw [← h.nbits, ← h.nbytes, h8] at hpartial
  refine BitVec.eq_of_toNat_eq ?_
  rwa [Nat.mod_eq_of_lt (BitVec.isLt _), Nat.mod_eq_of_lt (BitVec.isLt _)] at hpartial

/-- The byte is closed: it joins the complete ones, and none of the next is written. -/
theorem SameBytes.withClosedByte (h : SameBytes a b) (h8 : a.nbits.toNat = 8) (hn : a.nbytes.toNat < 7) :
    SameBytes (withClosedByte a) (withClosedByte b) where
  nbits := rfl
  nbytes := by simp [h.nbytes]
  parity := rfl
  lastByte := h.lastByte
  ts := h.ts
  complete := by
    intro i hi
    rw [withClosedByte_nbytes, toNat_succ_byte hn] at hi
    rcases Nat.lt_succ_iff_lt_or_eq.1 hi with hi | rfl
    · exact h.complete i hi
    · exact h.read_nbytes h8
  partialByte := by simp [Nat.mod_one]

/-- The frame's length is decided alike once the command byte is complete (41_frame_machine.md R120). -/
theorem SameBytes.enterTail (h : SameBytes a b) (hn : cmdBytePos < a.nbytes.toNat) :
    SameBytes (enterTail a) (enterTail b) where
  nbits := h.nbits
  nbytes := h.nbytes
  parity := h.parity
  lastByte := by simp [h.complete cmdBytePos hn]
  ts := h.ts
  complete := h.complete
  partialByte := h.partialByte

theorem payload_congr {m m' : Memory} {n : Nat} (h : ∀ i, i < n → m.read i = m'.read i) : payload m n = payload m' n :=
  List.map_congr_left fun i hi => h i (List.mem_range.1 hi)

/-- The verdict on a complete frame, and what it delivers, are the frame's own (41_frame_machine.md R123 to R128). -/
theorem SameBytes.completedFrame (h : SameBytes a b) (h8 : a.nbits.toNat = 8) :
    (completedFrame a).event = (completedFrame b).event ∧ (completedFrame a).delivery = (completedFrame b).delivery := by
  have hpayload := payload_congr h.complete
  unfold Machine.completedFrame checksum
  rw [← h.nbytes, ← h.ts, h.read_nbytes h8, hpayload]
  split_ifs <;> exact ⟨rfl, rfl⟩

/-! ## One bit in two frame machines -/

/-- Both answer, with the same event and delivery, and no output tells them apart afterwards. -/
def SameAnswer (x y : Option FsmStep) : Prop :=
  ∃ ta tb, x = some ta ∧ y = some tb ∧ ta.event = tb.event ∧ ta.delivery = tb.delivery ∧ SameFrame ta.regs tb.regs

/-- A bit in SYNC: the counts of zeros agree, and a sync writes the rest (41_frame_machine.md R113 to R115). -/
theorem syncBit_sameAnswer {p : Params} (bit : Bit) (now : Nat) (ha : a.Inv p) (hb : b.Inv p) (hsa : a.st = .sync)
    (hsb : b.st = .sync) (hbits : a.nbits = b.nbits) :
    SameAnswer (some (syncBit bit now a)) (some (syncBit bit now b)) := by
  obtain ⟨-, -, -, -, hsync, -⟩ := ha
  obtain ⟨-, -, -, -, hsync', -⟩ := hb
  obtain ⟨hbytes, hparity, hlast⟩ := hsync hsa
  obtain ⟨hbytes', hparity', hlast'⟩ := hsync' hsb
  refine ⟨_, _, rfl, rfl, ?_⟩
  unfold syncBit
  rw [← hbits]
  split_ifs
  · exact ⟨rfl, rfl, sameFrame_of_sync hsa hsb rfl⟩
  · exact ⟨rfl, rfl, SameBytes.sameFrame (sameBytes_of_start ⟨rfl, rfl⟩ ⟨hbytes, hbytes'⟩
      (hparity.trans hparity'.symm) (hlast.trans hlast'.symm) rfl) rfl⟩
  · exact ⟨rfl, rfl, sameFrame_of_reset rfl rfl⟩

/-- A bit in HEAD: both are at the same place of the same group. -/
theorem headBit_sameAnswer {p : Params} (bit : Bit) (ha : a.Inv p) (hb : b.Inv p) (hst : a.st = b.st) (hs : a.st = .head)
    (h : SameBytes a b) : SameAnswer (headBit bit a) (headBit bit b) := by
  have ⟨hma, _⟩ := ha
  have ⟨hmb, _⟩ := hb
  rcases headBit_cases bit ha hs with ⟨h8, hn, he⟩ | ⟨h8, hp, he⟩ | ⟨h8, hp, hn, he⟩ | ⟨h8, hp, hn, he⟩
  · exact ⟨_, _, he, headBit_data bit b (h.nbits ▸ h8.ne) (h.nbytes ▸ hn), rfl, rfl,
      (h.withDataBit hma hmb h8 bit).sameFrame hst⟩
  · exact ⟨_, _, he, headBit_odd bit b (h.nbits ▸ h8) (h.parity ▸ hp), rfl, rfl, sameFrame_of_reset rfl rfl⟩
  · exact ⟨_, _, he, headBit_even bit b (h.nbits ▸ h8) (h.parity ▸ hp) (h.nbytes ▸ hn), rfl, rfl,
      (h.withClosedByte h8 (by omega)).sameFrame hst⟩
  · refine ⟨_, _, he, headBit_command bit b (h.nbits ▸ h8) (h.parity ▸ hp) (h.nbytes ▸ hn), rfl, rfl,
      ((h.withClosedByte h8 (by omega)).enterTail ?_).sameFrame rfl⟩
    rw [withClosedByte_nbytes, toNat_succ_byte (by omega), hn]
    decide

/-- A bit in TAIL: both are at the same place of the same group, and a complete frame is judged alike. -/
theorem tailBit_sameAnswer {p : Params} (bit : Bit) (ha : a.Inv p) (hb : b.Inv p) (hst : a.st = b.st) (hs : a.st = .tail)
    (h : SameBytes a b) : SameAnswer (tailBit bit a) (tailBit bit b) := by
  have ⟨hma, _⟩ := ha
  have ⟨hmb, _⟩ := hb
  rcases tailBit_cases bit ha hs with ⟨h8, hin, hn, he⟩ | ⟨h8, hp, he⟩ | ⟨h8, hp, hn, he⟩ | ⟨h8, hp, hin, hn, he⟩
  · exact ⟨_, _, he, tailBit_data bit b (h.nbits ▸ h8.ne) (h.nbytes ▸ hin) (h.nbytes ▸ h.lastByte ▸ hn), rfl, rfl,
      (h.withDataBit hma hmb h8 bit).sameFrame hst⟩
  · exact ⟨_, _, he, tailBit_odd bit b (h.nbits ▸ h8) (h.parity ▸ hp), rfl, rfl, sameFrame_of_reset rfl rfl⟩
  · have hlast := a.lastByte.isLt
    exact ⟨_, _, he, tailBit_even bit b (h.nbits ▸ h8) (h.parity ▸ hp) (h.nbytes ▸ h.lastByte ▸ hn), rfl, rfl,
      (h.withClosedByte h8 (by omega)).sameFrame hst⟩
  · obtain ⟨hevent, hdelivery⟩ := h.completedFrame h8
    have he' : tailBit bit b = some (completedFrame b) :=
      tailBit_complete bit b (h.nbits ▸ h8) (h.parity ▸ hp) (h.nbytes ▸ hin) (h.nbytes ▸ h.lastByte ▸ hn)
    exact ⟨_, _, he, he', hevent, hdelivery, sameFrame_of_reset (by simp) (by simp)⟩

/-- The clear with which the bit after RESET begins gives a legal SYNC state (41_frame_machine.md R111). -/
theorem resetClear_inv {p : Params} {r : FsmRegs} (hr : r.Inv p) : r.resetClear.Inv p := by
  obtain ⟨hm, ht, -⟩ := hr
  exact ⟨hm, ht, by simp, by simp, by simp, by simp, by simp⟩

/-- One bit in two FSMs that differ only in what their frame has not written. -/
theorem fsmTransaction_sameAnswer {p : Params} (bit : Bit) (now : Nat) (ha : a.Inv p) (hb : b.Inv p) (h : SameFrame a b) :
    SameAnswer (fsmTransaction bit now a) (fsmTransaction bit now b) := by
  have ⟨hst, hsync, _⟩ := h
  cases hs : a.st <;> simp only [fsmTransaction, ← hst, hs]
  case reset => exact syncBit_sameAnswer bit now (resetClear_inv ha) (resetClear_inv hb) rfl rfl rfl
  case sync => exact syncBit_sameAnswer bit now ha hb hs (hst ▸ hs) (hsync hs)
  case head => exact headBit_sameAnswer bit ha hb hst hs (h.sameBytes (.inl hs))
  case tail => exact tailBit_sameAnswer bit ha hb hst hs (h.sameBytes (.inr hs))

/-- A call on a bit and then on the rest, both of which answer. -/
theorem consumeBits_cons_of_some {bit : Bit} {now : Nat} {r : FsmRegs} {t : FsmStep} {rest : List (Bit × Nat)} {c : FsmRun}
    (ht : fsmTransaction bit now r = some t) (hc : consumeBits t.regs rest = some c) :
    consumeBits r ((bit, now) :: rest) = some ⟨c.regs, t.event :: c.events, t.delivery.toList ++ c.deliveries⟩ := by
  rw [consumeBits_cons rest ht, hc, Option.map_some]

/-- A list of bits in two such FSMs: the invariant and the agreement pass from bit to bit. -/
theorem consumeBits_sameOutputs {p : Params} (bits : List (Bit × Nat)) (ha : a.Inv p) (hb : b.Inv p) (h : SameFrame a b)
    (htime : ∀ c ∈ bits, c.2 < 2 ^ p.tsW) :
    ∃ ca cb, consumeBits a bits = some ca ∧ consumeBits b bits = some cb
      ∧ ca.events = cb.events ∧ ca.deliveries = cb.deliveries := by
  induction bits generalizing a b with
  | nil => exact ⟨_, _, rfl, rfl, rfl, rfl⟩
  | cons c rest ih =>
    obtain ⟨bit, now⟩ := c
    obtain ⟨hnow, hrest⟩ := List.forall_mem_cons.1 htime
    obtain ⟨ta, tb, hta, htb, hevent, hdelivery, hsame⟩ := fsmTransaction_sameAnswer bit now ha hb h
    have keepsInv : ∀ {r : FsmRegs} {t : FsmStep}, r.Inv p → fsmTransaction bit now r = some t → t.regs.Inv p := by
      intro r t hr ht
      obtain ⟨u, hu, hinv, -⟩ := fsmTransaction_inv p bit now r hr hnow
      cases ht.symm.trans hu
      exact hinv
    obtain ⟨ca, cb, hca, hcb, hevents, hdeliveries⟩ := ih (keepsInv ha hta) (keepsInv hb htb) hsame hrest
    exact ⟨_, _, consumeBits_cons_of_some hta hca, consumeBits_cons_of_some htb hcb, by rw [hevent, hevents],
      by rw [hdelivery, hdeliveries]⟩

end

end Sys2Proof.Machine

namespace Sys2Proof.Proofs

open Sys2Proof.Machine

/-- Settles O36: what two frame machines may differ in is passed over by every bit, and in RESET that is everything. -/
theorem staleBytesReachNoOutput : Obligations.StaleBytesReachNoOutput :=
  ⟨fun _ _ _ bit now ha hb h => fsmTransaction_sameAnswer bit now ha hb h,
    fun _ _ _ bits ha hb hsa hsb htime => consumeBits_sameOutputs bits ha hb (sameFrame_of_reset hsa hsb) htime⟩

end Sys2Proof.Proofs
end

section
/-! What a bit transaction keeps of the FSM's registers (20_memory.md R51, R129), and the eight data bits that replace a byte
(R47). -/

namespace Sys2Proof.Machine

/-! ## What a bit keeps -/

section
variable (b : Bit) (now : Nat) (r : FsmRegs)

@[simp] theorem syncBit_pkt : (syncBit b now r).regs.pkt = r.pkt := by unfold syncBit; split_ifs <;> rfl
@[simp] theorem syncBit_nbytes : (syncBit b now r).regs.nbytes = r.nbytes := by unfold syncBit; split_ifs <;> rfl
@[simp] theorem syncBit_lastByte : (syncBit b now r).regs.lastByte = r.lastByte := by unfold syncBit; split_ifs <;> rfl

/-- In SYNC only a sync writes the time (41_frame_machine.md R114). -/
theorem syncBit_ts {b : Bit} {r : FsmRegs} (h : ¬ (b = 1 ∧ 12 ≤ r.nbits.toNat)) : (syncBit b now r).regs.ts = r.ts := by
  unfold syncBit
  split_ifs with h0 h12
  · rfl
  · exact absurd ⟨(BitVec.eq_zero_or_eq_one b).resolve_left h0, h12⟩ h
  · rfl

end

/-- What every bit keeps of the registers it finds: all bytes but the one a data bit shifts into, the time but at a sync,
`last_byte` where it is not decided or cleared, and `nbytes` within a group. -/
structure KeptByBit (b : Bit) (r r' : FsmRegs) : Prop where
  bytes : ∀ a, ((r.st = .head ∨ r.st = .tail) ∧ r.nbits.toNat ≠ 8 → a ≠ r.nbytes.toNat) →
    r'.pkt.read a = r.pkt.read a
  ts : ¬ (r.st = .sync ∧ b = 1 ∧ 12 ≤ r.nbits.toNat) → r'.ts = r.ts
  lastByte : r.st = .sync ∨ r.st = .tail → r'.lastByte = r.lastByte
  nbytes : r.st = .sync ∨ r.nbits.toNat ≠ 8 ∧ r.st ≠ .reset → r'.nbytes = r.nbytes

section
variable {b : Bit} {now : Nat} {r r' : FsmRegs}

/-- A data bit keeps all but its own byte, the count and the parity (41_frame_machine.md R109). -/
theorem keptByBit_withDataBit (hm : r.pkt.Wf) (hs : r.st = .head ∨ r.st = .tail) (h8 : r.nbits.toNat ≠ 8) :
    KeptByBit b r (withDataBit b r) where
  bytes _ ha := read_withDataBit_other hm (ha ⟨hs, h8⟩)
  ts _ := rfl
  lastByte _ := rfl
  nbytes _ := rfl

/-- A group's ninth bit writes neither the buffer nor the time (41_frame_machine.md R110). -/
theorem keptByBit_of_ninthBit (h8 : r.nbits.toNat = 8) (hs : r.st ≠ .sync) (hpkt : r'.pkt = r.pkt) (hts : r'.ts = r.ts)
    (hlast : r.st = .tail → r'.lastByte = r.lastByte) : KeptByBit b r r' where
  bytes _ _ := by rw [hpkt]
  ts _ := hts
  lastByte h := hlast (h.resolve_left hs)
  nbytes h := absurd h8 (h.resolve_left hs).1

/-- Every bit transaction from legal registers keeps them so far. -/
theorem fsmTransaction_keptByBit {p : Params} {t : FsmStep} (hr : r.Inv p) (h : fsmTransaction b now r = some t) :
    KeptByBit b r t.regs := by
  have ⟨hm, _⟩ := hr
  cases hs : r.st <;> simp only [fsmTransaction, hs] at h
  case reset =>
    cases h
    have hts : (syncBit b now r.resetClear).regs.ts = r.ts := syncBit_ts now (by simp)
    exact ⟨fun a _ => by simp, fun _ => hts, by simp [hs], by simp [hs]⟩
  case sync =>
    cases h
    exact ⟨fun a _ => by simp, fun hno => syncBit_ts now fun hyes => hno ⟨hs, hyes⟩, fun _ => by simp, fun _ => by simp⟩
  case head =>
    have hsync : r.st ≠ .sync := by simp [hs]
    have htail : r.st ≠ .tail := by simp [hs]
    rcases headBit_cases b hr hs with ⟨h8, -, he⟩ | ⟨h8, -, he⟩ | ⟨h8, -, -, he⟩ | ⟨h8, -, -, he⟩ <;>
      cases he.symm.trans h
    · exact keptByBit_withDataBit hm (.inl hs) h8.ne
    · exact keptByBit_of_ninthBit h8 hsync rfl rfl fun _ => rfl
    · exact keptByBit_of_ninthBit h8 hsync rfl rfl fun _ => rfl
    · exact keptByBit_of_ninthBit h8 hsync rfl rfl (absurd · htail)
  case tail =>
    have hsync : r.st ≠ .sync := by simp [hs]
    rcases tailBit_cases b hr hs with ⟨h8, -, -, he⟩ | ⟨h8, -, he⟩ | ⟨h8, -, -, he⟩ | ⟨h8, -, -, -, he⟩ <;>
      cases he.symm.trans h
    · exact keptByBit_withDataBit hm (.inr hs) h8.ne
    · exact keptByBit_of_ninthBit h8 hsync rfl rfl fun _ => rfl
    · exact keptByBit_of_ninthBit h8 hsync rfl rfl fun _ => rfl
    · exact keptByBit_of_ninthBit h8 hsync (by simp) (by simp) fun _ => by simp

end

/-! ## The data bits of a byte -/

/-- The byte in progress has its place in the frame: HEAD below the command byte's end, TAIL below `last_byte`. -/
def FsmRegs.InFrame (r : FsmRegs) : Prop :=
  (r.st = .head ∧ r.nbytes.toNat ≤ 3)
    ∨ (r.st = .tail ∧ r.nbytes.toNat < r.lastByte.toNat ∧ r.lastByte.toNat ≤ 6)

/-- What a run of data bits makes of the registers: the bits are shifted into `pkt[nbytes]` one after the other, counted
and summed, and nothing else changes. -/
structure Filled (bits : List Bit) (r r' : FsmRegs) : Prop where
  byte : r'.pkt.read r.nbytes.toNat = bits.foldl shiftIn (r.pkt.read r.nbytes.toNat)
  others : ∀ a, a ≠ r.nbytes.toNat → r'.pkt.read a = r.pkt.read a
  nbits : r'.nbits = r.nbits + BitVec.ofNat 4 bits.length
  parity : r'.parity = bits.foldl (fun x y => x + y) r.parity
  st : r'.st = r.st
  nbytes : r'.nbytes = r.nbytes
  lastByte : r'.lastByte = r.lastByte
  ts : r'.ts = r.ts

section
variable {b : Bit} {bits : List Bit} {r r' : FsmRegs}

theorem FsmRegs.InFrame.nbytes_lt (h : r.InFrame) : r.nbytes.toNat < maxPktLen := by
  unfold maxPktLen
  rcases h with ⟨-, h⟩ | ⟨-, h⟩ <;> omega

/-- A data bit within a frame is absorbed, in HEAD (R118) as in TAIL (R122). -/
theorem fsmTransaction_data (now : Nat) (h : r.InFrame) (h8 : r.nbits.toNat ≠ 8) :
    fsmTransaction b now r = some ⟨withDataBit b r, .noEvent, none⟩ := by
  unfold fsmTransaction
  have hin := h.nbytes_lt
  rcases h with ⟨hs, hn⟩ | ⟨hs, hn, -⟩ <;> rw [hs]
  · exact headBit_data b r h8 hn
  · exact tailBit_data b r h8 hin hn

theorem filled_nil : Filled [] r r := ⟨rfl, fun _ _ => rfl, by simp, rfl, rfl, rfl, rfl, rfl⟩

theorem filled_cons (hm : r.pkt.Wf) (h : Filled bits (withDataBit b r) r') : Filled (b :: bits) r r' where
  byte := by
    rw [List.foldl_cons, ← read_withDataBit_same hm]
    exact h.byte
  others a ha := (h.others a ha).trans (read_withDataBit_other hm ha)
  nbits := by
    rw [h.nbits, withDataBit_nbits, List.length_cons, BitVec.ofNat_add, BitVec.ofNat_add, BitVec.ofNat_toNat,
      BitVec.setWidth_eq, BitVec.add_assoc, BitVec.add_comm 1#4]
  parity := h.parity
  st := h.st
  nbytes := h.nbytes
  lastByte := h.lastByte
  ts := h.ts

/-- Data bits that the group has room for are all absorbed. -/
theorem consumeBits_data (time : Nat → Nat) (k : Nat) (hm : r.pkt.Wf) (hr : r.InFrame)
    (hroom : r.nbits.toNat + bits.length ≤ 8) :
    ∃ r', consumeBits r (timed time k bits) = some ⟨r', List.replicate bits.length .noEvent, []⟩ ∧ Filled bits r r' := by
  induction bits generalizing r k with
  | nil => exact ⟨r, rfl, filled_nil⟩
  | cons b rest ih =>
    rw [List.length_cons] at hroom
    have hcount : (withDataBit b r).nbits.toNat = r.nbits.toNat + 1 := toNat_succ_bit (by omega)
    obtain ⟨r', hrun, hfilled⟩ := ih (r := withDataBit b r) (k + 1)
      (Memory.wf_write _ _ _ hr.nbytes_lt hm) hr (by omega)
    exact ⟨r', consumeBits_cons_of_some (fsmTransaction_data (time k) hr (by omega)) hrun, filled_cons hm hfilled⟩

end

/-- A data bit enters at the least significant end and bit 7 drops out (20_memory.md R47). -/
theorem shiftIn_ofBool (old : Byte) (c : Bool) : shiftIn old (BitVec.ofBool c) = old.shiftConcat c := by
  refine BitVec.eq_of_toNat_eq ?_
  rw [shiftIn_toNat, BitVec.toNat_shiftConcat, Nat.shiftLeft_eq, BitVec.toNat_ofBool]

/-- Eight bits shifted in are the whole byte: the old one is gone (20_memory.md R47, R60). -/
theorem foldl_shiftIn_byteBits (old v : Byte) : (byteBits v).foldl shiftIn old = v := by
  simp only [byteBits, bitOf, List.foldl_cons, List.foldl_nil, shiftIn_ofBool]
  ext i hi
  interval_cases i <;> simp [BitVec.getElem_shiftConcat]

end Sys2Proof.Machine

namespace Sys2Proof.Proofs

open Sys2Proof.Machine

/-- Settles O30: outside the FSM a bit transaction writes its two ports and the record, inside it what `KeptByBit` leaves
open. -/
theorem bitTransactionFrame : Obligations.BitTransactionFrame := by
  intro b s t hs h
  rw [exec_bitInstr] at h
  obtain ⟨f, hf, rfl⟩ := runBit_eq_next_iff.1 h
  have kept := fsmTransaction_keptByBit hs hf
  exact ⟨rfl, rfl, rfl, rfl, rfl, rfl, rfl, rfl, rfl, rfl, rfl, rfl, kept.bytes, kept.ts, kept.lastByte, kept.nbytes⟩

/-- Settles O31: the eight bits are absorbed one by one, and shifted in they spell the byte. -/
theorem eightDataBitsReplaceTheByte : Obligations.EightDataBitsReplaceTheByte := by
  intro r v time k hm hbits hparity hframe
  obtain ⟨r', hrun, hfilled⟩ := consumeBits_data (bits := byteBits v) time k hm hframe (by simp [hbits, byteBits])
  refine ⟨r', hrun, ?_, hfilled.others, ?_, ?_, hfilled.st, hfilled.nbytes, hfilled.lastByte, hfilled.ts⟩
  · rw [hfilled.byte, foldl_shiftIn_byteBits]
  · rw [hfilled.nbits, hbits]
    rfl
  · rw [hfilled.parity, hparity, sumMod2]

end Sys2Proof.Proofs
end

section
/-! The two units on one machine (20_memory.md R53, R54): separate they commute, composed every emitted bit is the FSM's. -/

namespace Sys2Proof.Machine

/-- The operation of a symbol word is the PTD's step for one value of the symbol, in every state
(40_pulse_timing.md R81). -/
theorem exec_of_sym8 {i : Instr} (h : (encode i).format = .sym8) :
    ∃ x, ∀ s, exec i s = runSymbol (ptdTransaction s.params s.ptd x) s := by
  cases i with
  | sym0 => exact ⟨0, fun _ => rfl⟩
  | sym1 => exact ⟨1, fun _ => rfl⟩
  | symInvalid02 | symInvalid04 | symInvalid08 | symInvalid10 | symInvalid20 | symInvalid40 | symInvalid80 =>
    exact ⟨2, fun _ => rfl⟩
  | fbit0 | fbit1 | rateQuery | reset => exact absurd h (by simp [encode])

/-- The rate query of an edge, asked or not, writes its own port only; the edge's other words run after it
(40_pulse_timing.md R100). -/
theorem runWords_rateWords (e : Pins) (rest : List PortWord) (s : State) :
    ∃ answer, runWords (e.rateWords s.params ++ rest) s
      = runWords rest { s with out := { s.out with rateNin := answer } } := by
  unfold Pins.rateWords
  cases e.rateNout with
  | none => exact ⟨s.out.rateNin, rfl⟩
  | some n => exact ⟨some (n % 2 ^ s.params.noutW * rateK s.params), runWords_cons (decode_rateWord s.params n)⟩

/-- The words of a composed block's edge beside the rate query: the reset, or the symbol if there is one
(10_state.md R32, R40). -/
def Pins.composedWords (e : Pins) : List PortWord :=
  if e.rst = true then [⟨.rst1, 1⟩] else if e.symValid = true then [⟨.sym8, e.symData.toNat⟩] else []

theorem words_composed {p : Params} (e : Pins) (h : p.composed = true) :
    e.words p = e.rateWords p ++ e.composedWords := by
  simp only [Pins.words, Pins.composedWords, Pins.symWords, Pins.bitWords, symReady, h]
  cases e.rst <;> cases e.symValid <;> simp

/-- What a composed block makes of its bit port: the record gains the bit, the FSM makes the call on it at the time `now`, and
unless the reset comes the FSM's registers are the call's (20_memory.md R54, 10_state.md R40; entry 14). -/
def FedBy (now : Nat) (rst : Bool) (s t : State) : Prop :=
  t.trace.bits = s.trace.bits ++ t.out.bit.toList
    ∧ ∃ run, consumeBits s.fsm (t.out.bit.toList.map fun b => (b, now)) = some run
      ∧ t.trace.fsmEvents = s.trace.fsmEvents ++ run.events
      ∧ t.trace.deliveries = s.trace.deliveries ++ run.deliveries
      ∧ (rst = false → t.fsm = run.regs)

/-- Without a bit the FSM's record stays, and without reset so do its registers. -/
theorem fedBy_noBit {now : Nat} {rst : Bool} {s t : State} (hbit : t.out.bit = none)
    (hbits : t.trace.bits = s.trace.bits) (hevents : t.trace.fsmEvents = s.trace.fsmEvents)
    (hdeliveries : t.trace.deliveries = s.trace.deliveries) (hfsm : rst = false → t.fsm = s.fsm) :
    FedBy now rst s t := by
  refine ⟨by simp [hbit, hbits], ⟨s.fsm, [], []⟩, by simp [hbit], ?_, ?_, hfsm⟩ <;> simp [hevents, hdeliveries]

/-- A symbol transaction of the composed block feeds the FSM exactly the bit its PTD emits. -/
theorem runSymbol_fedBy {p : PtdStep} {s t : State} (hc : s.params.composed = true) (h : runSymbol p s = .next t) :
    FedBy s.now false s t := by
  cases hb : p.bit with
  | none =>
    cases (runSymbol_noBit p s hb).symm.trans h
    exact fedBy_noBit hb (by simp [hb]) rfl rfl fun _ => rfl
  | some b =>
    obtain ⟨f, hf, rfl⟩ := runBit_eq_next_iff.1 ((runSymbol_composed p s b hc hb).symm.trans h)
    have hcall : consumeBits s.fsm [(b, s.now)] = some ⟨f.regs, [f.event], f.delivery.toList ++ []⟩ :=
      consumeBits_cons_of_some hf (consumeBits_nil f.regs)
    exact ⟨rfl, ⟨f.regs, [f.event], f.delivery.toList⟩, by simpa [hb] using hcall, rfl, rfl, fun _ => rfl⟩

/-- One edge of the composed block, by what it presents: a reset, a symbol, or neither (20_memory.md R54). -/
theorem runWords_composedWords {e : Pins} {s t : State} (h : runWords e.composedWords s = .next t)
    (hc : s.params.composed = true) (hquiet : s.out.bit = none) :
    t.out.bit = (if e.symValid = true ∧ e.rst = false then
        (ptdTransaction s.params s.ptd e.symData).bit else none) ∧ FedBy s.now e.rst s t := by
  unfold Pins.composedWords at h
  split_ifs at h with hrst hsym
  · rw [runWords_single (decode_resetWord s.params)] at h
    cases h
    exact ⟨by simp [hrst, Outputs.quiet], fedBy_noBit rfl rfl rfl rfl (by simp [hrst])⟩
  · rw [runWords_single (decode_symWord s.params e.symData), exec_decodeSymbol] at h
    have hrst' : e.rst = false := by simpa using hrst
    rw [if_pos ⟨hsym, hrst'⟩, hrst']
    exact ⟨(runSymbol_ptdPorts h).1, runSymbol_fedBy hc h⟩
  · cases h
    exact ⟨by simp [hsym, hquiet], fedBy_noBit hquiet rfl rfl rfl fun _ => rfl⟩

end Sys2Proof.Machine

namespace Sys2Proof.Proofs

open Sys2Proof.Machine

/-- Settles O50: a separate symbol transaction leaves the bit's time and FSM registers as they are, and the two write
different fields. -/
theorem separateUnitsCommute : Obligations.SeparateUnitsCommute := by
  intro i b s t u hsep hfmt ht hu
  obtain ⟨x, hx⟩ := exec_of_sym8 hfmt
  rw [exec_bitInstr] at hu ⊢
  obtain ⟨f, hf, rfl⟩ := runBit_eq_next_iff.1 hu
  rw [hx, runSymbol_separate _ _ hsep] at ht
  rw [hx, runSymbol_separate _ (s.applyFsm f) hsep]
  cases ht
  exact runBit_eq_next_iff.2 ⟨f, hf, rfl⟩

/-- Settles O51: after the rate query the edge is a reset, one symbol's transaction or nothing, and only the symbol's can
emit a bit, which the FSM takes in the same transaction. -/
theorem composedBitsAllReachTheFrameMachine : Obligations.ComposedBitsAllReachTheFrameMachine := by
  intro s t hc h
  rw [step_eq, words_composed _ hc] at h
  obtain ⟨answer, hrate⟩ := runWords_rateWords s.nextEdge s.nextEdge.composedWords (s.sample s.nextEdge)
  exact runWords_composedWords (hrate.symm.trans h) hc rfl

end Sys2Proof.Proofs
end

section
/-! The decoder and the encoder as each other's inverses (30_encoding.md R62 to R66), and what the ports can present to the
decoder (R73, R75). -/

namespace Sys2Proof

/-- An operation of the symbol port is what some byte decodes to, and its word is that byte. Each row's operand is checked
over the few bits its mask leaves free (30_encoding.md R62). -/
theorem exists_symbol_of_sym8 {i : Instr} (h : (encode i).format = .sym8) :
    ∃ x : Byte, encode i = ⟨.sym8, x.toNat⟩ ∧ decodeSymbol x = i := by
  refine ⟨BitVec.ofNat 8 (encode i).bits, ?_⟩
  cases i with
  | sym0 | sym1 => decide
  | symInvalid02 low | symInvalid04 low | symInvalid08 low | symInvalid10 low | symInvalid20 low | symInvalid40 low
  | symInvalid80 low => clear h; revert low; decide
  | fbit0 | fbit1 | rateQuery | reset => exact absurd h (by simp [encode])

/-- The encoder gives back each of the 256 symbols (30_encoding.md R62). -/
theorem encode_decodeSymbol (x : Byte) : encode (decodeSymbol x) = ⟨.sym8, x.toNat⟩ := by
  revert x; decide

/-- A symbol's operation fits the ports at any parameters: only a rate query's operand can be too wide. -/
theorem wellFormed_decodeSymbol (p : Params) (x : Byte) : (decodeSymbol x).WellFormed p = true := by
  cases h : decodeSymbol x with
  | rateQuery n => exact absurd (encode_decodeSymbol x) (by simp [h, encode])
  | _ => rfl

/-- Every operation that the ports can carry is read back from its own word. -/
theorem decode_encode {p : Params} {i : Instr} (h : i.WellFormed p = true) : decode p (encode i) = .ok i := by
  by_cases hsym : (encode i).format = .sym8
  · obtain ⟨x, hword, hx⟩ := exists_symbol_of_sym8 hsym
    rw [hword, Machine.decode_symWord, hx]
  · cases i with
    | fbit0 | fbit1 | reset => rfl
    | rateQuery nOut => exact if_pos (of_decide_eq_true h)
    | _ => exact absurd rfl hsym

/-- The word a bit of the FSM's port is decoded from (30_encoding.md R63). -/
theorem decodeBit_eq_ok {w : Nat} {i : Instr} (h : decodeBit w = .ok i) : w = 0 ∧ i = .fbit0 ∨ w = 1 ∧ i = .fbit1 := by
  unfold decodeBit at h
  split_ifs at h with h0 h1 <;> cases h
  · exact .inl ⟨h0, rfl⟩
  · exact .inr ⟨h1, rfl⟩

/-- The word a rate query is decoded from (30_encoding.md R65). -/
theorem decodeRate_eq_ok {p : Params} {w : Nat} {i : Instr} (h : decodeRate p w = .ok i) :
    w < 2 ^ p.noutW ∧ i = .rateQuery w := by
  unfold decodeRate at h
  split_ifs at h with hw
  cases h
  exact ⟨hw, rfl⟩

/-- The word a reset is decoded from (30_encoding.md R66). -/
theorem decodeReset_eq_ok {w : Nat} {i : Instr} (h : decodeReset w = .ok i) : w = 1 ∧ i = .reset := by
  unfold decodeReset at h
  split_ifs at h with h1
  cases h
  exact ⟨h1, rfl⟩

/-- No word decodes to an operation that another word encodes, or that the ports cannot carry. -/
theorem encode_of_decode {p : Params} {w : PortWord} {i : Instr} (h : decode p w = .ok i) :
    encode i = w ∧ i.WellFormed p = true := by
  obtain ⟨format, bits⟩ := w
  cases format with
  | sym8 =>
    have hbits : bits < 256 := by
      by_contra hwide
      simp [decode, hwide] at h
    obtain ⟨x, rfl⟩ : ∃ x : Byte, x.toNat = bits := ⟨BitVec.ofNat 8 bits, Nat.mod_eq_of_lt hbits⟩
    rw [Machine.decode_symWord] at h
    cases h
    exact ⟨encode_decodeSymbol x, wellFormed_decodeSymbol p x⟩
  | bit1 => rcases decodeBit_eq_ok h with ⟨rfl, rfl⟩ | ⟨rfl, rfl⟩ <;> exact ⟨rfl, rfl⟩
  | rateq =>
    obtain ⟨hw, rfl⟩ := decodeRate_eq_ok h
    exact ⟨rfl, decide_eq_true hw⟩
  | rst1 =>
    obtain ⟨rfl, rfl⟩ := decodeReset_eq_ok h
    exact ⟨rfl, rfl⟩

/-- The operation's word fits the operation's row of the opcode table, whatever the operand. -/
theorem row_fits_encode (i : Instr) : i.row.fits (encode i) = true := by
  have own : Laws.OwnRow.Statement i := by
    cases i with
    | sym0 => exact Laws.OwnRow.sym0
    | sym1 => exact Laws.OwnRow.sym1
    | symInvalid02 low => exact Laws.OwnRow.symInvalid02 low
    | symInvalid04 low => exact Laws.OwnRow.symInvalid04 low
    | symInvalid08 low => exact Laws.OwnRow.symInvalid08 low
    | symInvalid10 low => exact Laws.OwnRow.symInvalid10 low
    | symInvalid20 low => exact Laws.OwnRow.symInvalid20 low
    | symInvalid40 low => exact Laws.OwnRow.symInvalid40 low
    | symInvalid80 low => exact Laws.OwnRow.symInvalid80 low
    | fbit0 => exact Laws.OwnRow.fbit0
    | fbit1 => exact Laws.OwnRow.fbit1
    | rateQuery nOut => exact Laws.OwnRow.rateQuery nOut
    | reset => exact Laws.OwnRow.reset
  exact own.2

/-- A symbol decodes to an operation of one of the nine rows of its port. -/
theorem row_decodeSymbol_mem (x : Byte) : (decodeSymbol x).row ∈ symbolRows := by
  revert x; decide

/-- No symbol fits two rows (30_encoding.md R62). -/
theorem row_eq_of_fits (x : Byte) : ∀ q ∈ symbolRows, q.fits ⟨.sym8, x.toNat⟩ = true → q = (decodeSymbol x).row := by
  revert x; decide

end Sys2Proof

namespace Sys2Proof.Machine

/-- Every word an edge presents decodes, whatever the levels of the pins (30_encoding.md R62, R63, R65, R66). -/
theorem exists_decode_of_mem_words {p : Params} {e : Pins} {w : PortWord} (hw : w ∈ e.words p) :
    ∃ i, decode p w = .ok i := by
  rcases (Proofs.edgePresentsWhatItAccepts p e w).1 hw with
    ⟨n, -, rfl⟩ | ⟨-, rfl⟩ | ⟨-, -, -, rfl⟩ | ⟨-, -, -, rfl⟩
  · exact ⟨_, decode_rateWord p n⟩
  · exact ⟨_, decode_resetWord p⟩
  · exact ⟨_, decode_symWord p e.symData⟩
  · exact ⟨_, decode_bitWord p e.fbitData⟩

theorem runBit_ne_refused (b : Bit) (s : State) (why : Refusal) : runBit b s ≠ .refused why := by
  unfold runBit
  cases fsmTransaction b s.now s.fsm <;> simp

/-- No operation is refused: each has its meaning. -/
theorem exec_ne_refused (i : Instr) (s : State) (why : Refusal) : exec i s ≠ .refused why := by
  rcases exec_cases i s with ⟨x, he⟩ | ⟨b, he⟩ | ⟨n, he⟩ | he <;> rw [he]
  · rcases runSymbol_cases (ptdTransaction s.params s.ptd x) s with hr | ⟨b, -, hr⟩ <;> rw [hr]
    · simp
    · exact runBit_ne_refused b _ why
  · exact runBit_ne_refused b s why
  · simp
  · simp

/-- A run of words that all decode is not refused; no operation changes the parameters they are decoded with. -/
theorem runWords_ne_refused {words : List PortWord} {s : State} (h : ∀ w ∈ words, ∃ i, decode s.params w = .ok i)
    (why : Refusal) : runWords words s ≠ .refused why := by
  induction words generalizing s with
  | nil => simp
  | cons w rest ih =>
    obtain ⟨⟨i, hi⟩, hrest⟩ := List.forall_mem_cons.1 h
    rw [runWords_cons hi]
    cases he : exec i s with
    | next t => exact ih (exec_params he ▸ hrest)
    | fault f => simp
    | refused r => exact absurd he (exec_ne_refused i s r)

end Sys2Proof.Machine

namespace Sys2Proof.Proofs

open Sys2Proof.Machine

/-- Settles O1: a symbol operation's word is the byte that decodes to it; the other ports' words name their row directly. -/
theorem encodedInstructionDecodesToItself : Obligations.EncodedInstructionDecodesToItself :=
  fun _ _ h => decode_encode h

/-- Settles O2: the port's table gives the word back, and an operation's own word always fits its row. -/
theorem decodedWordEncodesToItself : Obligations.DecodedWordEncodesToItself := by
  intro p w i h
  obtain ⟨rfl, hwf⟩ := encode_of_decode h
  exact ⟨rfl, hwf, row_fits_encode i⟩

/-- Settles O43: the ports present only words that decode, and no operation refuses. -/
theorem noPinLevelIsRefused : Obligations.NoPinLevelIsRefused :=
  fun s why => runWords_ne_refused (s := s.sample s.nextEdge) (fun _ hw => exists_decode_of_mem_words hw) why

/-- Settles O3: the row is the decoded operation's. -/
theorem everySymbolSelectsExactlyOneRow : Obligations.EverySymbolSelectsExactlyOneRow := by
  intro p x
  have hfits := row_fits_encode (decodeSymbol x)
  rw [encode_decodeSymbol] at hfits
  exact ⟨_, row_decodeSymbol_mem x, hfits, row_eq_of_fits x, _, decode_symWord p x, rfl⟩

/-- Settles O4: each word is the encoder's for its operation, and 100 fits the 32 wires of the rate query. -/
theorem tableWordsDecode : Obligations.TableWordsDecode := by
  intro p hw
  have hquery : (Instr.rateQuery 100).WellFormed p = true := by simp [Instr.WellFormed, hw]
  exact ⟨decode_encode (i := .sym0) rfl, decode_encode (i := .sym1) rfl, decode_encode (i := .symInvalid02 0) rfl,
    decode_encode (i := .symInvalid04 3) rfl, decode_encode (i := .symInvalid80 0x7F) rfl,
    decode_encode (i := .fbit0) rfl, decode_encode (i := .fbit1) rfl, decode_encode hquery,
    decode_encode (i := .reset) rfl⟩

/-- Settles O55: the codes are listed by the definitions, and each is one of 0 to 5. -/
theorem eventCodesAreTheTables : Obligations.EventCodesAreTheTables := by
  refine ⟨⟨rfl, rfl, rfl, rfl, rfl, rfl⟩, ⟨rfl, rfl, rfl, rfl, rfl, rfl⟩, ⟨rfl, rfl, rfl, rfl⟩, ?_, ?_⟩
  · intro e; cases e <;> decide
  · intro e; cases e <;> decide

end Sys2Proof.Proofs
end

section
/-! A whole frame on the bit stream (30_encoding.md R67 to R69): the preamble, the groups of the payload one after the other,
and the group of the checksum byte, each a call of its own from the registers the one before leaves. -/

namespace Sys2Proof.Machine

/-! ## Calls one after the other -/

/-- A call on a bit and the rest that answers is the bit's transaction and then the call on the rest. -/
theorem consumeBits_cons_eq_some {b : Bit} {now : Nat} {r : FsmRegs} {rest : List (Bit × Nat)} {c : FsmRun}
    (h : consumeBits r ((b, now) :: rest) = some c) :
    ∃ t d, fsmTransaction b now r = some t ∧ consumeBits t.regs rest = some d
      ∧ c = ⟨d.regs, t.event :: d.events, t.delivery.toList ++ d.deliveries⟩ := by
  cases ht : fsmTransaction b now r with
  | none => simp [consumeBits, ht] at h
  | some t =>
    rw [consumeBits_cons rest ht] at h
    obtain ⟨d, hd, rfl⟩ := Option.map_eq_some_iff.1 h
    exact ⟨t, d, rfl, hd, rfl⟩

/-- A call on one bit. -/
theorem consumeBits_timed_singleton {b : Bit} {k : Nat} {r : FsmRegs} {t : FsmStep} (time : Nat → Nat)
    (h : fsmTransaction b (time k) r = some t) :
    consumeBits r (timed time k [b]) = some ⟨t.regs, [t.event], t.delivery.toList ++ []⟩ :=
  consumeBits_cons_of_some h (consumeBits_nil t.regs)

/-- A second call begins where the first ends, in the registers and in time (41_frame_machine.md R135). -/
theorem consumeBits_timed_append {time : Nat → Nat} {k : Nat} {xs ys : List Bit} {r : FsmRegs} {a b : FsmRun}
    (ha : consumeBits r (timed time k xs) = some a) (hb : consumeBits a.regs (timed time (k + xs.length) ys) = some b) :
    consumeBits r (timed time k (xs ++ ys)) = some ⟨b.regs, a.events ++ b.events, a.deliveries ++ b.deliveries⟩ := by
  induction xs generalizing r k a with
  | nil => cases ha; exact hb
  | cons x rest ih =>
    obtain ⟨t, d, ht, hd, rfl⟩ := consumeBits_cons_eq_some ha
    rw [List.length_cons, Nat.add_comm rest.length, ← Nat.add_assoc] at hb
    rw [List.cons_append, timed, consumeBits_cons_of_some ht (ih hd hb), List.append_assoc]
    rfl

/-! ## The preamble -/

/-- The registers after some zeros in SYNC: the count stops at 15 (41_frame_machine.md R113). -/
def FsmRegs.countZeros (r : FsmRegs) (zeros : Nat) : FsmRegs :=
  { r with nbits := BitVec.ofNat 4 (min (r.nbits.toNat + zeros) 15) }

theorem countZeros_nbits_toNat (r : FsmRegs) (zeros : Nat) :
    (r.countZeros zeros).nbits.toNat = min (r.nbits.toNat + zeros) 15 :=
  Nat.mod_eq_of_lt (by omega)

theorem countZeros_zero (r : FsmRegs) : r.countZeros 0 = r := by
  have hbits : (r.countZeros 0).nbits = r.nbits := by
    refine BitVec.eq_of_toNat_eq ?_
    rw [countZeros_nbits_toNat]
    omega
  exact congrArg (fun n => { r with nbits := n }) hbits

theorem countZeros_succ (r : FsmRegs) (zeros : Nat) : (r.countZeros 1).countZeros zeros = r.countZeros (zeros + 1) := by
  have hcount : min ((r.countZeros 1).nbits.toNat + zeros) 15 = min (r.nbits.toNat + (zeros + 1)) 15 := by
    rw [countZeros_nbits_toNat]
    omega
  exact congrArg (fun n => { r with nbits := BitVec.ofNat 4 n }) hcount

/-- Zeros in SYNC are counted, one event NONE each. -/
theorem consumeBits_zeros (time : Nat → Nat) (k zeros : Nat) {r : FsmRegs} (hs : r.st = .sync) :
    consumeBits r (timed time k (List.replicate zeros 0))
      = some ⟨r.countZeros zeros, List.replicate zeros .noEvent, []⟩ := by
  induction zeros generalizing r k with
  | zero => rw [countZeros_zero]; rfl
  | succ n ih =>
    have hzero : fsmTransaction 0 (time k) r = some ⟨r.countZeros 1, .noEvent, none⟩ := by
      rw [fsmTransaction, hs]
      rfl
    rw [← countZeros_succ]
    exact consumeBits_cons_of_some hzero (ih (k + 1) hs)

/-- A call that begins in RESET begins with the clear (41_frame_machine.md R111). -/
theorem consumeBits_cons_of_reset {r : FsmRegs} (hs : r.st = .reset) (b : Bit × Nat) (rest : List (Bit × Nat)) :
    consumeBits r (b :: rest) = consumeBits r.resetClear (b :: rest) := by
  simp only [consumeBits, fsmTransaction, hs, resetClear_st]

/-- The registers a preamble from RESET leaves (41_frame_machine.md R114): HEAD, no byte begun, the time of its 1. -/
def FsmRegs.synced (r : FsmRegs) (now : Nat) : FsmRegs := { r.resetClear with ts := now, nbits := 0, st := .head }

/-- From RESET, twelve zeros or more and a 1 synchronize (30_encoding.md R67). -/
theorem consumeBits_preamble (time : Nat → Nat) (k : Nat) {zeros : Nat} {r : FsmRegs} (hs : r.st = .reset)
    (hz : 12 ≤ zeros) :
    consumeBits r (timed time k (preamble zeros))
      = some ⟨r.synced (time (k + zeros)), List.replicate zeros .noEvent ++ [.syncOk], []⟩ := by
  have hclear : consumeBits r (timed time k (preamble zeros)) = consumeBits r.resetClear (timed time k (preamble zeros)) := by
    obtain ⟨n, rfl⟩ := Nat.exists_eq_succ_of_ne_zero (show zeros ≠ 0 by omega)
    exact consumeBits_cons_of_reset hs _ _
  have hcount : syncZeros ≤ (r.resetClear.countZeros zeros).nbits.toNat := by
    rw [countZeros_nbits_toNat]
    unfold syncZeros
    omega
  have hone : fsmTransaction 1 (time (k + (List.replicate zeros (0 : Bit)).length)) (r.resetClear.countZeros zeros)
      = some ⟨r.synced (time (k + zeros)), .syncOk, none⟩ := by
    rw [List.length_replicate]
    exact congrArg some (if_pos hcount)
  rw [hclear]
  exact consumeBits_timed_append (consumeBits_zeros time k zeros rfl) (consumeBits_timed_singleton time hone)

/-! ## Where a frame stands -/

/-- What the registers hold of a frame synchronized at the time `now`, of which the bytes `done` are complete. -/
structure Received (now : Nat) (done : List Byte) (r : FsmRegs) : Prop where
  wf : r.pkt.Wf
  nbytes : r.nbytes.toNat = done.length
  bytes : payload r.pkt done.length = done
  ts : r.ts = now

/-- HEAD up to the command byte; after it TAIL with the frame's length decided (41_frame_machine.md R119). -/
def FsmRegs.InPart (message done : List Byte) (r : FsmRegs) : Prop :=
  r.st = .head ∧ done.length ≤ 3 ∨ r.st = .tail ∧ 4 ≤ done.length ∧ r.lastByte.toNat = message.length + 1

/-- A frame with the payload `message` stands at the start of a group, after the bytes `done`. -/
structure AtGroup (now : Nat) (message done : List Byte) (r : FsmRegs) : Prop extends Received now done r where
  part : r.InPart message done
  nbits : r.nbits = 0
  parity : r.parity = 0

/-- A frame with the payload `message` stands at the parity bit of the byte v, after the bytes `done`. -/
structure AtParity (now : Nat) (message done : List Byte) (v : Byte) (r : FsmRegs) : Prop extends Received now done r where
  part : r.InPart message done
  nbits : r.nbits.toNat = 8
  parity : r.parity = sumMod2 (byteBits v)
  byte : r.pkt.read done.length = v

section
variable {now k : Nat} {time : Nat → Nat} {message done rest : List Byte} {v : Byte} {r : FsmRegs}

theorem FitsCommand.length_eq (h : FitsCommand message) : message.length = 4 ∨ message.length = 5 :=
  h.imp And.left And.left

/-- The command byte of a payload decides its frame's length (41_frame_machine.md R120). -/
theorem FitsCommand.frameLength_toNat (h : FitsCommand message) :
    (frameLength (message.getD 3 0)).toNat = message.length + 1 := by
  unfold frameLength cmdExtBit
  rcases h with ⟨hlen, hbit⟩ | ⟨hlen, hbit⟩ <;> rw [hlen, hbit] <;> rfl

/-- The preamble leaves the frame at its first group. -/
theorem atGroup_synced (hm : r.pkt.Wf) (now : Nat) (message : List Byte) : AtGroup now message [] (r.synced now) where
  wf := hm
  nbytes := rfl
  bytes := rfl
  ts := rfl
  part := .inl ⟨rfl, Nat.zero_le 3⟩
  nbits := rfl
  parity := rfl

/-- A closed byte is one more that is complete. -/
theorem Received.withClosedByte (h : Received now done r) (hbyte : r.pkt.read done.length = v) (hlen : done.length < 7) :
    Received now (done ++ [v]) (withClosedByte r) where
  wf := h.wf
  nbytes := by
    rw [withClosedByte_nbytes, toNat_succ_byte (h.nbytes ▸ hlen), h.nbytes, List.length_append, List.length_singleton]
  bytes := by
    have hbytes := h.bytes
    unfold payload at hbytes ⊢
    rw [List.length_append, List.length_singleton, List.range_succ, List.map_append, withClosedByte_pkt, hbytes,
      List.map_singleton, hbyte]
  ts := h.ts

/-- A group of a frame has its place in the buffer. -/
theorem AtGroup.inFrame (h : AtGroup now message done r) (hfit : FitsCommand message)
    (hlen : done.length ≤ message.length) : r.InFrame := by
  have hmax := hfit.length_eq
  have hbytes := h.nbytes
  rcases h.part with ⟨hs, h3⟩ | ⟨hs, -, hlast⟩
  · exact .inl ⟨hs, by omega⟩
  · exact .inr ⟨hs, by omega, by omega⟩

/-- Data bits keep the buffer in its canonical form. -/
theorem consumeBits_data_wf {bits : List Bit} {c : FsmRun} (hm : r.pkt.Wf) (hr : r.InFrame)
    (hroom : r.nbits.toNat + bits.length ≤ 8) (h : consumeBits r (timed time k bits) = some c) : c.regs.pkt.Wf := by
  induction bits generalizing r k c with
  | nil => cases h; exact hm
  | cons b rest ih =>
    rw [List.length_cons] at hroom
    obtain ⟨t, d, ht, hd, rfl⟩ := consumeBits_cons_eq_some h
    cases (fsmTransaction_data (b := b) (time k) hr (by omega)).symm.trans ht
    have hcount : (withDataBit b r).nbits.toNat = r.nbits.toNat + 1 := toNat_succ_bit (by omega)
    exact ih (r := withDataBit b r) (c := d) (Memory.wf_write _ _ _ hr.nbytes_lt hm) hr (by omega) hd

/-- The eight data bits of a group bring the frame to the group's parity bit. -/
theorem AtGroup.consume_byteBits (h : AtGroup now message done r) (hin : r.InFrame) (time : Nat → Nat) (k : Nat) (v : Byte) :
    ∃ g, consumeBits r (timed time k (byteBits v)) = some ⟨g, List.replicate 8 .noEvent, []⟩
      ∧ AtParity now message done v g := by
  have hroom : r.nbits.toNat + (byteBits v).length ≤ 8 := by simp [h.nbits, byteBits]
  obtain ⟨g, hrun, hg⟩ := consumeBits_data time k h.wf hin hroom
  have hsame : payload g.pkt done.length = payload r.pkt done.length :=
    payload_congr fun i hi => hg.others i (h.nbytes ▸ hi.ne)
  have hread := hg.byte
  rw [foldl_shiftIn_byteBits, h.nbytes] at hread
  refine ⟨g, hrun, ?_⟩
  exact
    { wf := consumeBits_data_wf h.wf hin hroom hrun
      nbytes := hg.nbytes ▸ h.nbytes
      bytes := hsame.trans h.bytes
      ts := hg.ts.trans h.ts
      part := by
        unfold FsmRegs.InPart
        rw [hg.st, hg.lastByte]
        exact h.part
      nbits := by rw [hg.nbits, h.nbits]; rfl
      parity := by rw [hg.parity, h.parity, sumMod2]
      byte := hread }

/-- The ninth bit of a byte's group makes it even (30_encoding.md R68). -/
theorem AtParity.even (h : AtParity now message done v r) :
    (r.parity.toNat + (sumMod2 (byteBits v)).toNat) % 2 = 0 := by
  rw [h.parity]
  omega

/-- The parity bit of a payload byte closes it, and the command byte's brings the frame from HEAD to TAIL
(41_frame_machine.md R118, R119, R122). -/
theorem AtParity.close (h : AtParity now message done v r) (hfit : FitsCommand message)
    (hnext : done ++ v :: rest = message) (arrival : Nat) :
    ∃ r', fsmTransaction (sumMod2 (byteBits v)) arrival r = some ⟨r', .noEvent, none⟩
      ∧ AtGroup now message (done ++ [v]) r' := by
  have hlen : done.length < message.length := by rw [← hnext]; simp
  have hmax := hfit.length_eq
  have hbytes := h.nbytes
  have hclosed := h.toReceived.withClosedByte h.byte (by omega)
  have hdone : (done ++ [v]).length = done.length + 1 := List.length_append
  rcases h.part with ⟨hs, h3⟩ | ⟨hs, h4, hlast⟩ <;> simp only [fsmTransaction, hs]
  · rcases Nat.lt_or_eq_of_le h3 with h3 | h3
    · exact ⟨_, headBit_even _ r h.nbits h.even (by omega), hclosed, .inl ⟨hs, by omega⟩, rfl, rfl⟩
    · have hcommand : r.pkt.read cmdBytePos = message.getD 3 0 := by
        rw [← hnext, ← h3, List.getD_append_right _ _ _ _ le_rfl, Nat.sub_self]
        exact (congrArg r.pkt.read h3.symm).trans h.byte
      have hlength : (enterTail (withClosedByte r)).lastByte.toNat = message.length + 1 := by
        rw [enterTail_lastByte, withClosedByte_pkt, hcommand, hfit.frameLength_toNat]
      exact ⟨_, headBit_command _ r h.nbits h.even (by omega), ⟨hclosed.wf, hclosed.nbytes, hclosed.bytes, hclosed.ts⟩,
        .inr ⟨rfl, by omega, hlength⟩, rfl, rfl⟩
  · exact ⟨_, tailBit_even _ r h.nbits h.even (by omega), hclosed, .inr ⟨hs, by omega, hlast⟩, rfl, rfl⟩

/-! ## The groups -/

/-- The groups of the rest of the payload, absorbed one after the other. -/
theorem AtGroup.consume_payload (h : AtGroup now message done r) (hfit : FitsCommand message) (hrest : done ++ rest = message)
    (time : Nat → Nat) (k : Nat) :
    ∃ r', consumeBits r (timed time k (rest.flatMap byteGroup))
        = some ⟨r', List.replicate (9 * rest.length) .noEvent, []⟩ ∧ AtGroup now message message r' := by
  induction rest generalizing r done k with
  | nil =>
    rw [List.append_nil] at hrest
    subst hrest
    exact ⟨r, rfl, h⟩
  | cons v rest ih =>
    have hlen : done.length ≤ message.length := by rw [← hrest]; simp
    obtain ⟨g, hdata, hg⟩ := h.consume_byteBits (h.inFrame hfit hlen) time k v
    obtain ⟨r1, hninth, h1⟩ := hg.close hfit hrest (time (k + (byteBits v).length))
    have hgroup := consumeBits_timed_append hdata (consumeBits_timed_singleton time hninth)
    obtain ⟨r', hrun, h'⟩ := ih h1 (by simpa using hrest) (k + (byteGroup v).length)
    refine ⟨r', ?_, h'⟩
    rw [List.flatMap_cons, byteGroup, consumeBits_timed_append hgroup hrun, List.length_cons, Nat.mul_succ, Nat.add_comm,
      List.replicate_add]
    rfl

/-- The verdict on the checksum byte in plain integers (41_frame_machine.md R125). -/
theorem checksumAccepts_iff (received computed : Byte) :
    checksumAccepts received computed = true ↔ |(received.toNat : Int) - (computed.toNat : Int)| < 2 := by
  rw [checksumAccepts, decide_eq_true_iff, absDiff, checksumDiff, abs_lt]
  omega

/-- The registers of a frame at its last parity bit answer with the payload, if the checksum byte is accepted
(41_frame_machine.md R123 to R128). -/
theorem AtParity.completedFrame_eq {check : Byte} (h : AtParity now message message check r) :
    completedFrame r =
      if |(check.toNat : Int) - ((6 + (message.map BitVec.toNat).sum) % 256 : Nat)| < 2 then
        ⟨{ r with nbits := 0, parity := 0, st := .reset }, .delivered, some ⟨message, now⟩⟩
      else ⟨{ r with nbits := 0, parity := 0, st := .reset }, .checksumFail, none⟩ := by
  have hsum : (checksum r.pkt message.length).toNat = (6 + (message.map BitVec.toNat).sum) % 256 := by
    rw [checksum, h.bytes]
    rfl
  unfold completedFrame
  rw [h.nbytes, h.byte, h.bytes, h.ts]
  simp only [checksumAccepts_iff, hsum]

/-- The group of the checksum byte ends the frame with the answer at its ninth bit. -/
theorem AtGroup.consume_check (h : AtGroup now message message r) (hfit : FitsCommand message) (time : Nat → Nat) (k : Nat)
    (check : Byte) :
    ∃ g, AtParity now message message check g ∧ consumeBits r (timed time k (byteGroup check))
      = some ⟨(completedFrame g).regs, List.replicate 8 .noEvent ++ [(completedFrame g).event],
          (completedFrame g).delivery.toList⟩ := by
  obtain ⟨g, hdata, hg⟩ := h.consume_byteBits (h.inFrame hfit le_rfl) time k check
  have hmax := hfit.length_eq
  have hbytes := hg.nbytes
  have hninth : ∀ arrival, fsmTransaction (sumMod2 (byteBits check)) arrival g = some (completedFrame g) := by
    intro arrival
    rcases hg.part with ⟨-, h3⟩ | ⟨hs, -, hlast⟩
    · omega
    · rw [fsmTransaction, hs]
      exact tailBit_complete _ g hg.nbits hg.even (by unfold maxPktLen; omega) (by omega)
  refine ⟨g, hg, ?_⟩
  have hgroup := consumeBits_timed_append hdata (consumeBits_timed_singleton time (hninth _))
  rwa [List.append_nil, List.nil_append] at hgroup

end

end Sys2Proof.Machine

namespace Sys2Proof.Proofs

open Sys2Proof.Machine

/-- Settles O34: the preamble, the payload and the checksum byte are three calls, and the last one's ninth bit answers for
the frame. -/
theorem frameIsDeliveredWhenItsChecksumAgrees : Obligations.FrameIsDeliveredWhenItsChecksumAgrees := by
  intro r zeros message check time hm hs hz hfit
  have hpre := consumeBits_preamble time 0 hs hz
  obtain ⟨r1, hpayload, h1⟩ :=
    (atGroup_synced hm (time (0 + zeros)) message).consume_payload hfit (List.nil_append _) time
      (0 + (preamble zeros).length)
  obtain ⟨g, hg, hcheck⟩ := h1.consume_check hfit time
    (0 + (preamble zeros).length + (message.flatMap byteGroup).length) check
  have hframe := consumeBits_timed_append hpre (consumeBits_timed_append hpayload hcheck)
  have hnine : 9 * (message.length + 1) - 1 = 9 * message.length + 8 := by omega
  refine ⟨{ g with nbits := 0, parity := 0, st := .reset }, rfl, ?_⟩
  rw [frameBits, List.flatMap_append, List.flatMap_singleton, hframe, hg.completedFrame_eq, hnine, List.replicate_add,
    Nat.zero_add]
  split_ifs <;> simp

end Sys2Proof.Proofs
end

section
/-! The pulse-timing decoder (40_pulse_timing.md R81 to R104): one symbol's transaction, the classification of a period in
its three forms, the saturated counters, and the chunk call. -/

namespace Sys2Proof.Machine

/-! ## One symbol's transaction -/

@[simp] theorem ptdTransaction_one (p : Params) (r : PtdRegs) : ptdTransaction p r 1 = ptdHigh p r := rfl

@[simp] theorem ptdTransaction_zero (p : Params) (r : PtdRegs) : ptdTransaction p r 0 = ptdLow p r := rfl

/-- Without a low run, a high symbol counts on the high run (40_pulse_timing.md R83). -/
theorem ptdHigh_of_noLowRun (p : Params) {r : PtdRegs} (h : r.lc = 0) :
    ptdHigh p r = ⟨⟨satSucc p r.hc, 0⟩, none, .noEvent⟩ := by
  simp [ptdHigh, h]

/-- After a low run, a high symbol completes the period and starts the next one (40_pulse_timing.md R82). -/
theorem ptdHigh_of_lowRun (p : Params) {r : PtdRegs} (h : 0 < r.lc) :
    ptdHigh p r = ⟨⟨1, 0⟩, (classify p.sampleRateHz r.hc r.lc).emitted, (classify p.sampleRateHz r.hc r.lc).event⟩ := by
  simp [ptdHigh, h]

/-- After a high run, a low symbol counts (40_pulse_timing.md R84). -/
theorem ptdLow_of_highRun (p : Params) {r : PtdRegs} (h : 0 < r.hc) :
    ptdLow p r = ⟨⟨r.hc, satSucc p r.lc⟩, none, .noEvent⟩ := by
  simp [ptdLow, h]

/-- An invalid symbol's transaction writes no register, in either wiring (40_pulse_timing.md R85). -/
theorem runSymbol_ptdInvalid (s : State) :
    runSymbol (ptdInvalid s.ptd) s = .next (afterSymbol s s.ptd.hc s.ptd.lc none .invalidSymbol) :=
  runSymbol_noBit _ s rfl

/-- With both counters at 0, every symbol but a high one is silent and changes nothing (40_pulse_timing.md R84, R85). -/
theorem ptdTransaction_idle (p : Params) {x : Byte} (h : x ≠ 1) :
    (ptdTransaction p ⟨0, 0⟩ x).regs = ⟨0, 0⟩ ∧ (ptdTransaction p ⟨0, 0⟩ x).bit = none := by
  rw [ptdTransaction, if_neg h]
  by_cases h0 : x = 0
  · rw [if_pos h0]; exact ⟨rfl, rfl⟩
  · rw [if_neg h0]; exact ⟨rfl, rfl⟩

/-! ## The classification in integers, by exact times and by sample counts -/

/-- Cases 1 and 2 multiplied out: the period lies between lo and hi nanoseconds and the runs differ by at most d
(40_pulse_timing.md R87, R88). -/
abbrev PeriodInWindow (rate lo hi d h l : Nat) : Prop :=
  lo * rate ≤ (h + l) * 1000000000 ∧ (h + l) * 1000000000 ≤ hi * rate ∧ absDiff h l * 1000000000 ≤ d * rate

/-- Case 3 multiplied out (40_pulse_timing.md R89). -/
abbrev RunsInEotWindow (rate h l : Nat) : Prop :=
  300000 * rate ≤ h * 1000000000 ∧ h * 1000000000 ≤ 500000 * rate ∧ 300000 * rate ≤ l * 1000000000

theorem inBit0Window_iff {rate h l : Nat} :
    inBit0Window rate h l = true ↔ PeriodInWindow rate 600000 1000000 250000 h l := by
  simp only [inBit0Window, Bool.and_eq_true, decide_eq_true_eq, and_assoc]
  exact Iff.rfl

theorem inBit1Window_iff {rate h l : Nat} :
    inBit1Window rate h l = true ↔ PeriodInWindow rate 1000000 1425000 356000 h l := by
  simp only [inBit1Window, Bool.and_eq_true, decide_eq_true_eq, and_assoc]
  exact Iff.rfl

theorem inEotWindow_iff {rate h l : Nat} : inEotWindow rate h l = true ↔ RunsInEotWindow rate h l := by
  simp only [inEotWindow, Bool.and_eq_true, decide_eq_true_eq, and_assoc]
  exact Iff.rfl

/-- The absolute difference of two counts, as the statements write it (00_scope.md R13). -/
theorem natCast_absDiff (h l : Nat) : (absDiff h l : Int) = |(h : Int) - l| := by
  unfold absDiff
  rcases le_total h l with hle | hle
  · rw [abs_of_nonpos (by omega)]; omega
  · rw [abs_of_nonneg (by omega)]; omega

section

variable {rate : Nat} (hrate : 1 ≤ rate)

include hrate

/-- n samples last at least a nanoseconds exactly when the products say so: both sides multiplied by R
(40_pulse_timing.md R87). -/
theorem le_mul_sampleDuration_iff (a n : Nat) :
    (a : Rat) ≤ n * sampleDuration rate ↔ a * rate ≤ n * 1000000000 := by
  rw [sampleDuration, mul_div_assoc', le_div_iff₀ (by exact_mod_cast hrate)]
  exact_mod_cast Iff.rfl

theorem mul_sampleDuration_le_iff (a n : Nat) :
    n * sampleDuration rate ≤ (a : Rat) ↔ n * 1000000000 ≤ a * rate := by
  rw [sampleDuration, mul_div_assoc', div_le_iff₀ (by exact_mod_cast hrate)]
  exact_mod_cast Iff.rfl

/-- The times of two runs differ by the time of the difference of their counts. -/
theorem abs_time_sub (h l : Nat) :
    |h * sampleDuration rate - l * sampleDuration rate| = (absDiff h l : Nat) * sampleDuration rate := by
  have hpos : 0 ≤ sampleDuration rate := by unfold sampleDuration; positivity
  have hcast : ((absDiff h l : Nat) : Rat) = |(h : Rat) - l| := by exact_mod_cast natCast_absDiff h l
  rw [← sub_mul, abs_mul, abs_of_nonneg hpos, hcast]

theorem periodInWindow_iff_time (lo hi d h l : Nat) :
    PeriodInWindow rate lo hi d h l ↔
      (lo : Rat) ≤ h * sampleDuration rate + l * sampleDuration rate
        ∧ h * sampleDuration rate + l * sampleDuration rate ≤ hi
        ∧ |h * sampleDuration rate - l * sampleDuration rate| ≤ d := by
  rw [abs_time_sub hrate, ← add_mul, ← Nat.cast_add, le_mul_sampleDuration_iff hrate, mul_sampleDuration_le_iff hrate,
    mul_sampleDuration_le_iff hrate]

theorem bit0Window_iff_time (h l : Nat) :
    PeriodInWindow rate 600000 1000000 250000 h l ↔
      600000 ≤ h * sampleDuration rate + l * sampleDuration rate
        ∧ h * sampleDuration rate + l * sampleDuration rate ≤ 1000000
        ∧ |h * sampleDuration rate - l * sampleDuration rate| ≤ 250000 :=
  periodInWindow_iff_time hrate 600000 1000000 250000 h l

theorem bit1Window_iff_time (h l : Nat) :
    PeriodInWindow rate 1000000 1425000 356000 h l ↔
      1000000 ≤ h * sampleDuration rate + l * sampleDuration rate
        ∧ h * sampleDuration rate + l * sampleDuration rate ≤ 1425000
        ∧ |h * sampleDuration rate - l * sampleDuration rate| ≤ 356000 :=
  periodInWindow_iff_time hrate 1000000 1425000 356000 h l

theorem eotWindow_iff_time (h l : Nat) :
    RunsInEotWindow rate h l ↔
      300000 ≤ h * sampleDuration rate ∧ h * sampleDuration rate ≤ 500000 ∧ 300000 ≤ l * sampleDuration rate := by
  have hlow := le_mul_sampleDuration_iff hrate 300000
  have hhigh := mul_sampleDuration_le_iff hrate 500000 h
  simp only [Nat.cast_ofNat] at hlow hhigh
  rw [hlow, hhigh, hlow]

/-- The classification in integers is the one by exact times, case by case (40_pulse_timing.md R86 to R90). -/
theorem classify_eq_classifyByTime (h l : Nat) : classify rate h l = classifyByTime rate h l := by
  simp only [classify, classifyByTime, inBit0Window_iff, inBit1Window_iff, inEotWindow_iff, bit0Window_iff_time hrate,
    bit1Window_iff_time hrate, eotWindow_iff_time hrate]

end

/-- The least count that lasts a nanoseconds (40_pulse_timing.md R91). -/
theorem cdiv_le_iff {rate a n : Nat} : cdiv rate a ≤ n ↔ a * rate ≤ n * 1000000000 := by
  rw [cdiv, Nat.ceil_le, div_le_iff₀ (by norm_num)]
  exact_mod_cast Iff.rfl

/-- The greatest count that lasts at most a nanoseconds (40_pulse_timing.md R91). -/
theorem le_fdiv_iff {rate a n : Nat} : n ≤ fdiv rate a ↔ n * 1000000000 ≤ a * rate :=
  Nat.le_div_iff_mul_le (by decide)

theorem max_sub_min_eq_absDiff (h l : Nat) : max h l - min h l = absDiff h l := by
  unfold absDiff
  omega

/-- Comparing sample counts with the rounded bounds is the classification in integers, at every rate
(40_pulse_timing.md R91). -/
theorem classifyByCount_eq_classify (rate h l : Nat) : classifyByCount rate h l = classify rate h l := by
  simp only [classifyByCount, classify, inBit0Window_iff, inBit1Window_iff, inEotWindow_iff, cdiv_le_iff, le_fdiv_iff,
    max_sub_min_eq_absDiff, PeriodInWindow, RunsInEotWindow]

/-! ## Saturated counters -/

/-- A saturated run alone lasts longer than any window below CNT_MAX samples, so it is outside before and after saturation
(40_pulse_timing.md R92). -/
theorem periodInWindow_saturated {rate lo hi d m : Nat} (hm : hi * rate < m * 1000000000) (h l : Nat) :
    PeriodInWindow rate lo hi d (min h m) (min l m) ↔ PeriodInWindow rate lo hi d h l := by
  by_cases hfit : h ≤ m ∧ l ≤ m
  · rw [min_eq_left hfit.1, min_eq_left hfit.2]
  · have hlong : ∀ n, m ≤ n → ¬ n * 1000000000 ≤ hi * rate := by omega
    have hsat := hlong (min h m + min l m) (by omega)
    have htrue := hlong (h + l) (by omega)
    simp only [PeriodInWindow, hsat, htrue, false_and, and_false]

theorem runsInEotWindow_saturated {rate m : Nat} (hm : 500000 * rate < m * 1000000000) (h l : Nat) :
    RunsInEotWindow rate (min h m) (min l m) ↔ RunsInEotWindow rate h l := by
  have hleast : ∀ n, 300000 * rate ≤ min n m * 1000000000 ↔ 300000 * rate ≤ n * 1000000000 := by omega
  have hmost : min h m * 1000000000 ≤ 500000 * rate ↔ h * 1000000000 ≤ 500000 * rate := by omega
  simp only [RunsInEotWindow, hleast, hmost]

/-- CNT_MAX samples last longer than the longest window, so saturation shows in no case (00_scope.md R9,
40_pulse_timing.md R92). -/
theorem classify_saturated {p : Params} (hp : p.Legal) (h l : Nat) :
    classify p.sampleRateHz (min h p.cntMax) (min l p.cntMax) = classify p.sampleRateHz h l := by
  obtain ⟨-, hmax⟩ := hp
  have h0 := periodInWindow_saturated (rate := p.sampleRateHz) (lo := 600000) (hi := 1000000) (d := 250000)
    (m := p.cntMax) (by omega) h l
  have h1 := periodInWindow_saturated (lo := 1000000) (d := 356000) hmax h l
  have h2 := runsInEotWindow_saturated (rate := p.sampleRateHz) (m := p.cntMax) (by omega) h l
  simp only [classify, inBit0Window_iff, inBit1Window_iff, inEotWindow_iff, h0, h1, h2]

/-- Counts that saturate alike classify alike. -/
theorem classify_congr_saturated {p : Params} (hp : p.Legal) {h h' l l' : Nat} (hh : min h p.cntMax = min h' p.cntMax)
    (hl : min l p.cntMax = min l' p.cntMax) : classify p.sampleRateHz h l = classify p.sampleRateHz h' l' := by
  rw [← classify_saturated hp h l, hh, hl, classify_saturated hp]

/-- Counting n samples one by one saturates as the sum does (10_state.md R21, R22). -/
theorem min_satSucc_iterate (p : Params) (n c : Nat) :
    min ((satSucc p)^[n] c) p.cntMax = min (c + n) p.cntMax := by
  induction n generalizing c with
  | zero => rfl
  | succ n ih =>
    rw [Function.iterate_succ_apply, ih, satSucc]
    omega

/-! ## The chunk call -/

/-- A symbol that emits no bit leaves the call its room. -/
theorem consumeChunk_cons_silent {p : Params} {r r' : PtdRegs} {x : Byte} (xs : List Byte) {cap : Nat} (hcap : 1 ≤ cap)
    (hregs : (ptdTransaction p r x).regs = r') (hbit : (ptdTransaction p r x).bit = none) :
    consumeChunk p r (x :: xs) cap =
      ⟨(consumeChunk p r' xs cap).consumed + 1, (consumeChunk p r' xs cap).bits, (consumeChunk p r' xs cap).regs⟩ := by
  simp [consumeChunk_cons p r x xs cap (by omega), hregs, hbit]

/-- Symbols other than a high one, with both counters at 0, are consumed and change nothing (40_pulse_timing.md R103). -/
theorem consumeChunk_idle (p : Params) {syms : List Byte} {cap : Nat} (hcap : 1 ≤ cap) (h : ∀ x ∈ syms, x ≠ 1) :
    consumeChunk p ⟨0, 0⟩ syms cap = ⟨syms.length, [], ⟨0, 0⟩⟩ := by
  induction syms with
  | nil => rfl
  | cons x xs ih =>
    obtain ⟨hx, hxs⟩ := List.forall_mem_cons.1 h
    obtain ⟨hregs, hbit⟩ := ptdTransaction_idle p hx
    rw [consumeChunk_cons_silent xs hcap hregs hbit, ih hxs, List.length_cons]

/-- A high run is consumed and counted, and emits nothing (40_pulse_timing.md R83). -/
theorem consumeChunk_highRun (p : Params) (n hc : Nat) {cap : Nat} (hcap : 1 ≤ cap) :
    consumeChunk p ⟨hc, 0⟩ (List.replicate n 1) cap = ⟨n, [], ⟨(satSucc p)^[n] hc, 0⟩⟩ := by
  induction n generalizing hc with
  | zero => rfl
  | succ n ih =>
    have hstep := (ptdTransaction_one p ⟨hc, 0⟩).trans (ptdHigh_of_noLowRun p rfl)
    rw [List.replicate_succ, consumeChunk_cons_silent _ hcap (congrArg PtdStep.regs hstep) (congrArg PtdStep.bit hstep), ih]
    rfl

/-- A low run after a high one is consumed and counted, and emits nothing (40_pulse_timing.md R84). -/
theorem consumeChunk_lowRun (p : Params) (n lc : Nat) {hc cap : Nat} (hhc : 0 < hc) (hcap : 1 ≤ cap) :
    consumeChunk p ⟨hc, lc⟩ (List.replicate n 0) cap = ⟨n, [], ⟨hc, (satSucc p)^[n] lc⟩⟩ := by
  induction n generalizing lc with
  | zero => rfl
  | succ n ih =>
    have hstep := (ptdTransaction_zero p ⟨hc, lc⟩).trans (ptdLow_of_highRun p hhc)
    rw [List.replicate_succ, consumeChunk_cons_silent _ hcap (congrArg PtdStep.regs hstep) (congrArg PtdStep.bit hstep), ih]
    rfl

theorem consumeChunk_consumed_le (p : Params) (r : PtdRegs) (syms : List Byte) (cap : Nat) :
    (consumeChunk p r syms cap).consumed ≤ syms.length := by
  induction syms generalizing r cap with
  | nil => simp
  | cons x xs ih =>
    rcases Nat.eq_zero_or_pos cap with rfl | hcap
    · simp
    · rw [consumeChunk_cons p r x xs cap hcap.ne']
      exact Nat.succ_le_succ (ih _ _)

theorem consumeChunk_bits_le (p : Params) (r : PtdRegs) (syms : List Byte) (cap : Nat) :
    (consumeChunk p r syms cap).bits.length ≤ cap := by
  induction syms generalizing r cap with
  | nil => simp
  | cons x xs ih =>
    rcases Nat.eq_zero_or_pos cap with rfl | hcap
    · simp
    · rw [consumeChunk_cons p r x xs cap hcap.ne', List.length_append]
      have hone := Option.length_toList_le (o := (ptdTransaction p r x).bit)
      have hrest := ih (ptdTransaction p r x).regs (cap - (ptdTransaction p r x).bit.toList.length)
      omega

/-- A call that leaves symbols has used up its capacity (40_pulse_timing.md R95). -/
theorem consumeChunk_full_of_consumed_lt {p : Params} {r : PtdRegs} {syms : List Byte} {cap : Nat}
    (h : (consumeChunk p r syms cap).consumed < syms.length) : (consumeChunk p r syms cap).bits.length = cap := by
  induction syms generalizing r cap with
  | nil => exact absurd h (Nat.not_lt_zero _)
  | cons x xs ih =>
    rcases Nat.eq_zero_or_pos cap with rfl | hcap
    · simp
    · rw [consumeChunk_cons p r x xs cap hcap.ne'] at h ⊢
      have hone := Option.length_toList_le (o := (ptdTransaction p r x).bit)
      have hrest := ih (Nat.lt_of_succ_lt_succ h)
      rw [List.length_append]
      omega

/-- A call that consumes all of xs goes on with ys in the room that is left (40_pulse_timing.md R94). -/
theorem consumeChunk_append {p : Params} {r : PtdRegs} {xs : List Byte} (ys : List Byte) {cap : Nat}
    (h : (consumeChunk p r xs cap).consumed = xs.length) :
    consumeChunk p r (xs ++ ys) cap =
      (let a := consumeChunk p r xs cap
       let b := consumeChunk p a.regs ys (cap - a.bits.length)
       ⟨a.consumed + b.consumed, a.bits ++ b.bits, b.regs⟩) := by
  induction xs generalizing r cap with
  | nil => simp
  | cons x xs ih =>
    rcases Nat.eq_zero_or_pos cap with rfl | hcap
    · simp at h
    · rw [consumeChunk_cons p r x xs cap hcap.ne'] at h ⊢
      rw [List.cons_append, consumeChunk_cons p r x (xs ++ ys) cap hcap.ne']
      simp only [ih (Nat.succ.inj h), List.length_append, Nat.sub_sub, List.append_assoc, Nat.add_right_comm]

/-- A call is the one with less capacity, then one on the symbols it left (40_pulse_timing.md R94). -/
theorem consumeChunk_resume (p : Params) (r : PtdRegs) (xs : List Byte) (cap more : Nat) :
    consumeChunk p r xs (cap + more) =
      (let a := consumeChunk p r xs cap
       let b := consumeChunk p a.regs (xs.drop a.consumed) more
       ⟨a.consumed + b.consumed, a.bits ++ b.bits, b.regs⟩) := by
  induction xs generalizing r cap with
  | nil => simp
  | cons x xs ih =>
    rcases Nat.eq_zero_or_pos cap with rfl | hcap
    · simp
    · rw [consumeChunk_cons p r x xs cap hcap.ne', consumeChunk_cons p r x xs (cap + more) (by omega)]
      have hone := Option.length_toList_le (o := (ptdTransaction p r x).bit)
      have hroom : cap + more - (ptdTransaction p r x).bit.toList.length
          = cap - (ptdTransaction p r x).bit.toList.length + more := by omega
      simp only [hroom, ih, List.drop_succ_cons, List.append_assoc, Nat.add_right_comm]

/-- Separate units: the first symbol of a run is the PTD's step alone (40_pulse_timing.md R102). -/
theorem runSymbols_cons_separate {s : State} (x : Byte) (rest : List Byte) (h : s.params.composed = false) :
    runSymbols (x :: rest) s = runSymbols rest (s.applyPtd (ptdTransaction s.params s.ptd x)) := by
  rw [runSymbols, exec_decodeSymbol, runSymbol_separate _ s h]

end Sys2Proof.Machine

namespace Sys2Proof.Proofs

open Sys2Proof.Machine

/-- Settles O9: a high symbol after a low run emits its integer classification, which is the one by exact times; composed,
the FSM is fed only where that has a bit. -/
theorem completedPeriodIsClassified : Obligations.CompletedPeriodIsClassified := by
  intro s hrate hlow
  have hexec : exec .sym1 s = runSymbol ⟨⟨1, 0⟩, (classifyByTime s.params.sampleRateHz s.ptd.hc s.ptd.lc).emitted,
      (classifyByTime s.params.sampleRateHz s.ptd.hc s.ptd.lc).event⟩ s := by
    rw [← classify_eq_classifyByTime hrate, ← ptdHigh_of_lowRun s.params hlow]
    rfl
  rw [hexec]
  constructor
  · intro hsep
    rw [runSymbol_separate _ s hsep]
    cases classifyByTime s.params.sampleRateHz s.ptd.hc s.ptd.lc <;> rfl
  · intro hcomp
    cases classifyByTime s.params.sampleRateHz s.ptd.hc s.ptd.lc with
    | bit0 => exact runSymbol_composed _ s 0 hcomp rfl
    | bit1 => exact runSymbol_composed _ s 1 hcomp rfl
    | eot => exact runSymbol_noBit _ s rfl
    | invalid => exact runSymbol_noBit _ s rfl

/-- Settles O10: every time is a count of samples times SampleDuration, and multiplying by R keeps each comparison. -/
theorem integerClassificationIsExact : Obligations.IntegerClassificationIsExact := by
  intro rate h l hrate
  have hdiff : ∀ d : Nat, |(h : Int) - l| * 1000000000 ≤ d * rate ↔ absDiff h l * 1000000000 ≤ d * rate := by
    intro d
    rw [← natCast_absDiff]
    exact_mod_cast Iff.rfl
  refine ⟨?_, ?_, eotWindow_iff_time hrate h l, classify_eq_classifyByTime hrate h l⟩
  · exact (and_congr_right' (and_congr_right' (hdiff 250000))).trans (bit0Window_iff_time hrate h l)
  · exact (and_congr_right' (and_congr_right' (hdiff 356000))).trans (bit1Window_iff_time hrate h l)

/-- Settles O11: a rounded bound is met exactly when its product is, so both are the classification in integers. -/
theorem sampleCountsClassifyAlike : Obligations.SampleCountsClassifyAlike := by
  intro rate h l hrate
  rw [classifyByCount_eq_classify, classify_eq_classifyByTime hrate]

/-- Settles O12: in integers, where CNT_MAX samples exceed the longest window. -/
theorem saturationNeverChangesAClassification : Obligations.SaturationNeverChangesAClassification := by
  intro p h l hp
  rw [← classify_eq_classifyByTime hp.1, ← classify_eq_classifyByTime hp.1, classify_saturated hp]

/-- Settles O13: the two runs are counted one by one, and the counters saturate as the true counts do. -/
theorem pulseYieldsItsClassification : Obligations.PulseYieldsItsClassification := by
  rintro p ⟨hc, lc⟩ c more l cap hp rfl hheld hhigh hlow hcap
  have hmax := cntMax_pos hp
  have hcountH := min_satSucc_iterate p more hc
  have hcountL := min_satSucc_iterate p l 0
  simp only at hheld
  have hposH : 0 < (satSucc p)^[more] hc := by omega
  have hposL : 0 < (satSucc p)^[l] 0 := by omega
  have hrunH := consumeChunk_highRun p more hc hcap
  have hclass : classify p.sampleRateHz ((satSucc p)^[more] hc) ((satSucc p)^[l] 0)
      = classifyByTime p.sampleRateHz (c + more) l := by
    rw [← classify_eq_classifyByTime hp.1]
    exact classify_congr_saturated hp (by omega) (by omega)
  refine ⟨⟨(satSucc p)^[more] hc, (satSucc p)^[l] 0⟩, ?_, ?_⟩
  · rw [consumeChunk_append _ (by rw [hrunH, List.length_replicate]), hrunH]
    simp only [List.length_nil, Nat.sub_zero, consumeChunk_lowRun p l 0 hposH hcap, List.nil_append]
  · rw [ptdTransaction_one, ptdHigh_of_lowRun p hposL, hclass]
    refine ⟨rfl, ?_⟩
    cases classifyByTime p.sampleRateHz (c + more) l <;> rfl

/-- Settles O14: with both counters at 0 only a high symbol counts, and one fits any counter. -/
theorem nothingCountsBeforeTheFirstHighSymbol : Obligations.NothingCountsBeforeTheFirstHighSymbol := by
  intro p syms cap hw hcap hsyms
  refine ⟨consumeChunk_idle p hcap hsyms, ?_⟩
  have hpow : 2 ^ 1 ≤ 2 ^ p.cntW := Nat.pow_le_pow_right (by decide) hw
  have hone : satSucc p 0 = 1 := by
    unfold satSucc Params.cntMax
    omega
  rw [ptdTransaction_one, ptdHigh_of_noLowRun p rfl, hone]

/-- Settles O16: each account by induction on the symbols. -/
theorem chunkCallKeepsItsAccounts : Obligations.ChunkCallKeepsItsAccounts := by
  intro p r syms cap
  exact ⟨consumeChunk_consumed_le p r syms cap, consumeChunk_bits_le p r syms cap, consumeChunk_full_of_consumed_lt,
    consumeChunk_full p r syms⟩

/-- Settles O17: both splits by induction on the symbols. -/
theorem chunkBoundariesAreTransparent : Obligations.ChunkBoundariesAreTransparent := by
  intro p r xs ys cap more
  exact ⟨consumeChunk_append ys, consumeChunk_resume p r xs cap more⟩

/-- Settles O18: by induction on the symbols; separate, each is the PTD's step alone. -/
theorem chunkCallIsARunOfTransactions : Obligations.ChunkCallIsARunOfTransactions := by
  intro s syms cap hsep
  induction syms generalizing s cap with
  | nil => exact ⟨s, rfl, rfl, by simp, rfl, rfl, rfl⟩
  | cons x xs ih =>
    rcases Nat.eq_zero_or_pos cap with rfl | hcap
    · exact ⟨s, by simp [runSymbols], by simp, by simp, by simp, rfl, rfl⟩
    · obtain ⟨t, hrun, hptd, hbits, hconsumed, hfsm, hdeliveries⟩ :=
        ih (s.applyPtd (ptdTransaction s.params s.ptd x))
          (cap - (ptdTransaction s.params s.ptd x).bit.toList.length) hsep
      rw [consumeChunk_cons s.params s.ptd x xs cap hcap.ne']
      refine ⟨t, (runSymbols_cons_separate x _ hsep).trans hrun, hptd, ?_, ?_, hfsm, hdeliveries⟩
      · rw [hbits, applyPtd_trace]
        exact List.append_assoc _ _ _
      · rw [hconsumed, applyPtd_trace]
        exact Nat.add_right_comm _ _ _

/-- Settles O37: RATE_K is the exact ceiling, and the query writes its own port only. -/
theorem rateQueryAnswersTheProduct : Obligations.RateQueryAnswersTheProduct := by
  intro s nOut
  rw [← rateK_eq_natCeil]
  rfl

/-- Settles O6: with no low run the step counts and emits nothing. -/
theorem highSymbolExtendsTheHighRun : Obligations.HighSymbolExtendsTheHighRun := by
  intro s hlow
  have hstep := ptdHigh_of_noLowRun s.params hlow
  exact (congrArg (runSymbol · s) hstep).trans (runSymbol_noBit _ s rfl)

/-- Settles O7: a low symbol never emits a bit. -/
theorem lowSymbolCountsAfterAHighRun : Obligations.LowSymbolCountsAfterAHighRun :=
  fun s => runSymbol_noBit (ptdLow s.params s.ptd) s rfl

/-- Settles O8: the seven rows share one meaning. -/
theorem invalidSymbolsChangeNoRegister : Obligations.InvalidSymbolsChangeNoRegister := by
  intro s
  have h := runSymbol_ptdInvalid s
  exact ⟨fun _ => h, fun _ => h, fun _ => h, fun _ => h, fun _ => h, fun _ => h, fun _ => h⟩

/-- Settles O49: without room the edge presents no word, so the step only samples it. -/
theorem symbolWaitsForRoom : Obligations.SymbolWaitsForRoom := by
  intro s e rest hstim hsep _ hroom hrst hfbit hrate
  have hnext : s.nextEdge = e := by rw [State.nextEdge, hstim, List.headD_cons]
  have hready : symReady s.params e = false := by simp [symReady, hsep, hroom]
  have hwords : e.words s.params = [] := by
    simp [Pins.words, Pins.rateWords, Pins.symWords, Pins.bitWords, hrate, hrst, hready, hfbit]
  refine ⟨s.sample e, ?_, rfl, rfl, rfl, hready⟩
  rw [step_eq, hnext, hwords, runWords_nil]

end Sys2Proof.Proofs
end

section
/-! The frame state machine at the machine's interface (41_frame_machine.md R106 to R135): each bit's place in the preamble or
in a group with the operation's answer there, the transition table, and calls on lists of bits. -/

namespace Sys2Proof

/-- The FSM's port decodes every bit and nothing else (30_encoding.md R63, R73). -/
theorem decodeBit_eq_notABit_iff {w : Nat} : decodeBit w = .error .notABit ↔ ¬ (w = 0 ∨ w = 1) := by
  unfold decodeBit
  split_ifs with h0 h1
  · simp [h0]
  · simp [h1]
  · simp [h0, h1]

end Sys2Proof

namespace Sys2Proof.Machine

/-! ## The operation of a bit -/

section
variable {b : Bit} {s : State} {t : FsmStep}

/-- Where the FSM makes a step, the bit's operation answers with the step's registers and ports. -/
theorem exec_bitInstr_of_step (h : fsmTransaction b s.now s.fsm = some t) :
    exec (bitInstr b) s = .next (afterBit s t.regs t.event t.delivery) := by
  rw [exec_bitInstr]
  exact runBit_eq_next_iff.2 ⟨t, h, rfl⟩

/-- Where the FSM makes no step, the transaction faults (entry 10). -/
theorem runBit_of_none (h : fsmTransaction b s.now s.fsm = none) : runBit b s = .fault .packetIndex := by
  rw [runBit, h]

/-- The operation reports the state and the event of the FSM's step. -/
theorem exec_bitInstr_reports {x : FsmState × FsmEvent}
    (h : ∃ t, fsmTransaction b s.now s.fsm = some t ∧ (t.regs.st, t.event) = x) :
    ∃ u, exec (bitInstr b) s = .next u ∧ (u.fsm.st, u.out.fsmEvt) = x := by
  obtain ⟨t, ht, hx⟩ := h
  exact ⟨_, exec_bitInstr_of_step ht, hx⟩

/-- Registers that take the same step at the machine's time give the same bit transaction: of the FSM's registers only the
step's stay. -/
theorem runBit_congr_fsm {r : FsmRegs} (h : fsmTransaction b s.now s.fsm = fsmTransaction b s.now r) :
    runBit b s = runBit b { s with fsm := r } := by
  have hnow : ({ s with fsm := r } : State).now = s.now := rfl
  unfold runBit
  rw [hnow, h]
  cases fsmTransaction b s.now r <;> rfl

end

/-! ## One bit, by its place -/

section
variable {b : Bit} {now : Nat} {r : FsmRegs}

/-- A bit in RESET is a SYNC bit after the clear (41_frame_machine.md R111). -/
theorem fsmTransaction_of_reset (hs : r.st = .reset) : fsmTransaction b now r = fsmTransaction b now r.resetClear := by
  simp only [fsmTransaction, hs, resetClear_st]

theorem fsmTransaction_of_sync (hs : r.st = .sync) : fsmTransaction b now r = some (syncBit b now r) := by
  rw [fsmTransaction, hs]

/-- A zero of the preamble is counted (41_frame_machine.md R113). -/
theorem syncBit_zero : syncBit 0 now r = ⟨{ r with nbits := satZeros r.nbits }, .noEvent, none⟩ := rfl

/-- A 1 after enough zeros synchronizes (41_frame_machine.md R114). -/
theorem syncBit_one_of_enough (h : 12 ≤ r.nbits.toNat) :
    syncBit 1 now r = ⟨{ r with ts := now, nbits := 0, st := .head }, .syncOk, none⟩ := if_pos h

/-- A 1 after too few zeros fails the sync (41_frame_machine.md R115). -/
theorem syncBit_one_of_few (h : r.nbits.toNat < 12) : syncBit 1 now r = ⟨r.toReset, .syncFail, none⟩ :=
  if_neg (Nat.not_le_of_lt h)

/-- The ninth bit of an even group, the last of its part of the frame excepted (41_frame_machine.md R118, R122). -/
theorem fsmTransaction_even (h8 : r.nbits.toNat = 8) (hp : (r.parity.toNat + b.toNat) % 2 = 0)
    (hin : (r.st = .head ∧ r.nbytes.toNat < 3) ∨ (r.st = .tail ∧ r.nbytes.toNat + 1 < r.lastByte.toNat)) :
    fsmTransaction b now r = some ⟨withClosedByte r, .noEvent, none⟩ := by
  unfold fsmTransaction
  rcases hin with ⟨hs, hn⟩ | ⟨hs, hn⟩ <;> rw [hs]
  · exact headBit_even b r h8 hp hn
  · exact tailBit_even b r h8 hp hn

/-- The ninth bit of an odd group (41_frame_machine.md R117, R121). -/
theorem fsmTransaction_odd (h8 : r.nbits.toNat = 8) (hp : (r.parity.toNat + b.toNat) % 2 = 1)
    (hs : r.st = .head ∨ r.st = .tail) : fsmTransaction b now r = some ⟨r.toReset, .parityError, none⟩ := by
  unfold fsmTransaction
  rcases hs with hs | hs <;> rw [hs]
  · exact headBit_odd b r h8 hp
  · exact tailBit_odd b r h8 hp

end

/-! ## The arithmetic of a group in natural numbers -/

theorem paritySum_eq_ofNat (parity b : Bit) :
    paritySum parity b = BitVec.ofNat 1 ((parity.toNat + b.toNat) % 2) := by
  rw [← paritySum_toNat, BitVec.ofNat_toNat, BitVec.setWidth_eq]

theorem shiftIn_eq_ofNat (old : Byte) (b : Bit) :
    shiftIn old b = BitVec.ofNat 8 ((old.toNat * 2 + b.toNat) % 256) := by
  rw [← shiftIn_toNat, BitVec.ofNat_toNat, BitVec.setWidth_eq]

/-- The extension bit of the command byte as a digit (41_frame_machine.md R120). -/
theorem frameLength_eq_ite_digit (command : Byte) :
    frameLength command = if command.toNat / 2 ^ 5 % 2 = 1 then 6 else 5 := by
  simp only [frameLength, cmdExtBit, BitVec.getLsbD, Nat.testBit_eq_decide_div_mod_eq, decide_eq_true_eq]

/-! ## The complete frame's verdict -/

/-- The checksum byte is within 1 of the sum of the complete bytes, as plain integers
(41_frame_machine.md R124, R125). -/
abbrev FsmRegs.ChecksumAgrees (r : FsmRegs) : Prop :=
  |((r.pkt.read r.nbytes.toNat).toNat : Int)
    - ((6 + ((payload r.pkt r.nbytes.toNat).map BitVec.toNat).sum) % 256 : Nat)| < 2

/-- The answer to a complete frame, the verdict in plain integers (41_frame_machine.md R125 to R127). -/
theorem completedFrame_eq_ite (r : FsmRegs) :
    completedFrame r =
      if r.ChecksumAgrees then
        ⟨{ r with nbits := 0, parity := 0, st := .reset }, .delivered, some ⟨payload r.pkt r.nbytes.toNat, r.ts⟩⟩
      else ⟨{ r with nbits := 0, parity := 0, st := .reset }, .checksumFail, none⟩ := by
  have hsum : (checksum r.pkt r.nbytes.toNat).toNat
      = (6 + ((payload r.pkt r.nbytes.toNat).map BitVec.toNat).sum) % 256 := rfl
  simp only [completedFrame, checksumAccepts_iff, hsum]

theorem completedFrame_reports (r : FsmRegs) :
    ((completedFrame r).regs.st, (completedFrame r).event) =
      if r.ChecksumAgrees then (.reset, .delivered) else (.reset, .checksumFail) := by
  rw [completedFrame_eq_ite]
  split_ifs <;> rfl

/-! ## The rows of the transition table (41_frame_machine.md R132) -/

section
variable (b : Bit) (now : Nat) {r : FsmRegs}

/-- The rows of SYNC: the bit and the count of zeros decide. -/
theorem syncBit_reports (r : FsmRegs) :
    ((syncBit b now r).regs.st, (syncBit b now r).event) =
      if b = 0 then (r.st, .noEvent) else if 12 ≤ r.nbits.toNat then (.head, .syncOk) else (.reset, .syncFail) := by
  unfold syncBit syncZeros
  split_ifs <;> rfl

/-- The rows of HEAD: the bit's place in its group, the parity, and the command byte decide. -/
theorem headBit_reports {p : Params} (hr : r.Inv p) (hs : r.st = .head) :
    ∃ t, headBit b r = some t ∧ (t.regs.st, t.event) =
      if r.nbits.toNat < 8 then (.head, .noEvent)
      else if (r.parity.toNat + b.toNat) % 2 = 1 then (.reset, .parityError)
      else if r.nbytes.toNat + 1 ≤ 3 then (.head, .noEvent) else (.tail, .noEvent) := by
  rcases headBit_cases b hr hs with ⟨h8, -, he⟩ | ⟨h8, hp, he⟩ | ⟨h8, hp, hn, he⟩ | ⟨h8, hp, hn, he⟩ <;>
    refine ⟨_, he, ?_⟩
  · simp [h8, hs]
  · simp [h8, hp]
  · simp [h8, hp, hn, hs]
  · simp [h8, hp, hn]

/-- The rows of TAIL: the bit's place in its group, the parity, the last byte and its checksum decide. -/
theorem tailBit_reports {p : Params} (hr : r.Inv p) (hs : r.st = .tail) :
    ∃ t, tailBit b r = some t ∧ (t.regs.st, t.event) =
      if r.nbits.toNat < 8 then (.tail, .noEvent)
      else if (r.parity.toNat + b.toNat) % 2 = 1 then (.reset, .parityError)
      else if r.nbytes.toNat + 1 < r.lastByte.toNat then (.tail, .noEvent)
      else if r.ChecksumAgrees then (.reset, .delivered) else (.reset, .checksumFail) := by
  rcases tailBit_cases b hr hs with ⟨h8, -, -, he⟩ | ⟨h8, hp, he⟩ | ⟨h8, hp, hn, he⟩ | ⟨h8, hp, -, hn, he⟩ <;>
    refine ⟨_, he, ?_⟩
  · simp [h8, hs]
  · simp [h8, hp]
  · simp [h8, hp, hn, hs]
  · rw [completedFrame_reports]
    simp [h8, hp, hn.not_gt]

end

/-! ## Calls on lists of bits -/

/-- A call reports one event a bit (41_frame_machine.md R135). -/
theorem consumeBits_events_length {bits : List (Bit × Nat)} {r : FsmRegs} {c : FsmRun} (h : consumeBits r bits = some c) :
    c.events.length = bits.length := by
  induction bits generalizing r c with
  | nil => cases h; rfl
  | cons x rest ih =>
    obtain ⟨t, d, -, hd, rfl⟩ := consumeBits_cons_eq_some h
    exact congrArg (· + 1) (ih hd)

/-- A call on a bit that the FSM does not answer (entry 10). -/
theorem consumeBits_cons_of_none {b : Bit} {now : Nat} {r : FsmRegs} (rest : List (Bit × Nat))
    (h : fsmTransaction b now r = none) : consumeBits r ((b, now) :: rest) = none := by
  simp only [consumeBits, h]

/-- Two calls, the second from where the first ends, as one: the events and deliveries follow each other. -/
theorem consumeBits_append (r : FsmRegs) (xs ys : List (Bit × Nat)) :
    consumeBits r (xs ++ ys) = (consumeBits r xs).bind fun a =>
      (consumeBits a.regs ys).map fun c => ⟨c.regs, a.events ++ c.events, a.deliveries ++ c.deliveries⟩ := by
  induction xs generalizing r with
  | nil => simp
  | cons x rest ih =>
    obtain ⟨b, now⟩ := x
    cases ht : fsmTransaction b now r with
    | none => simp [consumeBits_cons_of_none _ ht]
    | some t =>
      rw [List.cons_append, consumeBits_cons _ ht, consumeBits_cons _ ht, ih]
      cases consumeBits t.regs rest with
      | none => rfl
      | some a => simp [Function.comp_def]

/-- A preamble from RESET begins with the clear, be it of its first zero or of its 1. -/
theorem consumeBits_preamble_of_reset {r : FsmRegs} (hs : r.st = .reset) (zeros : Nat) (time : Nat → Nat) (k : Nat) :
    consumeBits r (timed time k (preamble zeros)) = consumeBits r.resetClear (timed time k (preamble zeros)) := by
  cases zeros <;> exact consumeBits_cons_of_reset hs _ _

/-- The run stops at a bit that the FSM does not answer (entry 10). -/
theorem runBits_cons_of_none {b : Bit} {now : Nat} {s : State} (rest : List (Bit × Nat))
    (h : fsmTransaction b now s.fsm = none) : runBits ((b, now) :: rest) s = .fault .packetIndex := by
  have hbit : runBit b { s with timeIn := some now } = .fault .packetIndex := runBit_of_none h
  simp only [runBits, exec_bitInstr, hbit]

/-- What a run of bits that makes the call `c` leaves of the machine: the call's registers, its events and deliveries
after those of before, and the PTD with its record untouched (20_memory.md R51). -/
structure RanCall (s : State) (c : FsmRun) (t : State) : Prop where
  fsm : t.fsm = c.regs
  events : t.trace.fsmEvents = s.trace.fsmEvents ++ c.events
  deliveries : t.trace.deliveries = s.trace.deliveries ++ c.deliveries
  ptd : t.ptd = s.ptd
  params : t.params = s.params
  bits : t.trace.bits = s.trace.bits
  ptdEvents : t.trace.ptdEvents = s.trace.ptdEvents
  consumed : t.trace.consumed = s.trace.consumed

theorem ranCall_nil (s : State) : RanCall s ⟨s.fsm, [], []⟩ s :=
  ⟨rfl, (List.append_nil _).symm, (List.append_nil _).symm, rfl, rfl, rfl, rfl, rfl⟩

/-- One bit's step before a run that makes the call on the rest. -/
theorem ranCall_cons {s t : State} {f : FsmStep} {now : Nat} {c : FsmRun}
    (h : RanCall (State.applyFsm f { s with timeIn := some now }) c t) :
    RanCall s ⟨c.regs, f.event :: c.events, f.delivery.toList ++ c.deliveries⟩ t where
  fsm := h.fsm
  events := by rw [h.events, applyFsm_trace, List.append_assoc, List.singleton_append]
  deliveries := by rw [h.deliveries, applyFsm_trace, List.append_assoc]
  ptd := h.ptd
  params := h.params
  bits := h.bits
  ptdEvents := h.ptdEvents
  consumed := h.consumed

/-- A call that answers is the run of its bits' operations. -/
theorem runBits_of_consumeBits {bits : List (Bit × Nat)} {s : State} {c : FsmRun} (h : consumeBits s.fsm bits = some c) :
    ∃ t, runBits bits s = .next t ∧ RanCall s c t := by
  induction bits generalizing s c with
  | nil => cases h; exact ⟨s, rfl, ranCall_nil s⟩
  | cons x rest ih =>
    obtain ⟨b, now⟩ := x
    obtain ⟨f, d, hf, hd, rfl⟩ := consumeBits_cons_eq_some h
    obtain ⟨t, hrun, ht⟩ := ih (s := State.applyFsm f { s with timeIn := some now }) hd
    exact ⟨t, (runBits_cons rest hf).trans hrun, ranCall_cons ht⟩

/-- A call without an answer is a run that stops with the fault of entry 10. -/
theorem runBits_of_consumeBits_none {bits : List (Bit × Nat)} {s : State} (h : consumeBits s.fsm bits = none) :
    runBits bits s = .fault .packetIndex := by
  induction bits generalizing s with
  | nil => cases h
  | cons x rest ih =>
    obtain ⟨b, now⟩ := x
    cases hf : fsmTransaction b now s.fsm with
    | none => exact runBits_cons_of_none rest hf
    | some f =>
      rw [consumeBits_cons rest hf] at h
      rw [runBits_cons rest hf]
      exact ih (Option.map_eq_none_iff.1 h)

end Sys2Proof.Machine

namespace Sys2Proof.Proofs

open Sys2Proof.Machine

/-- Settles O28: the last parity bit of TAIL completes the frame, and the checksum is the sum of the n bytes below it. -/
theorem completeFrameIsValidated : Obligations.CompleteFrameIsValidated := by
  intro b s n hs h8 hp hn hbytes hlast
  subst hbytes
  have hstep : fsmTransaction b s.now s.fsm = some (completedFrame s.fsm) := by
    rw [fsmTransaction, hs]
    exact tailBit_complete b s.fsm h8 hp (by unfold maxPktLen; omega) hlast.le
  rw [exec_bitInstr_of_step hstep, completedFrame_eq_ite, BitVec.ofNat_toNat, BitVec.setWidth_eq]
  refine congrArg _ ?_
  unfold FsmRegs.ChecksumAgrees payload
  dsimp only
  split_ifs <;> rfl

/-- Settles O29: the rows of each state, the two of RESET being SYNC's after the clear. -/
theorem transitionTableIsTotal : Obligations.TransitionTableIsTotal := by
  intro b s hinv
  refine exec_bitInstr_reports ?_
  cases hs : s.fsm.st with
  | reset =>
    refine ⟨_, (fsmTransaction_of_reset hs).trans (fsmTransaction_of_sync rfl), (syncBit_reports b s.now _).trans ?_⟩
    simp
  | sync =>
    refine ⟨_, fsmTransaction_of_sync hs, (syncBit_reports b s.now _).trans ?_⟩
    rw [hs]
  | head =>
    simp only [fsmTransaction, hs]
    exact headBit_reports b hinv hs
  | tail =>
    simp only [fsmTransaction, hs]
    exact tailBit_reports b hinv hs

/-- Settles O33: after the clear fewer than twelve zeros are counted, so the 1 fails the sync. -/
theorem shortPreambleNeverSynchronizes : Obligations.ShortPreambleNeverSynchronizes := by
  intro r zeros time k hs hz
  have hcount : (r.resetClear.countZeros zeros).nbits.toNat < 12 := by
    have hclear : r.resetClear.nbits.toNat = 0 := rfl
    rw [countZeros_nbits_toNat, hclear]
    omega
  have hone : fsmTransaction 1 (time (k + (List.replicate zeros (0 : Bit)).length)) (r.resetClear.countZeros zeros)
      = some ⟨(r.resetClear.countZeros zeros).toReset, .syncFail, none⟩ :=
    congrArg some (syncBit_one_of_few hcount)
  refine ⟨(r.resetClear.countZeros zeros).toReset, ?_, rfl⟩
  rw [consumeBits_preamble_of_reset hs]
  exact consumeBits_timed_append (consumeBits_zeros time k zeros rfl) (consumeBits_timed_singleton time hone)

/-- Settles O35: both clauses by induction on the first list. -/
theorem bitListsSplitWithoutLoss : Obligations.BitListsSplitWithoutLoss := by
  intro r xs ys
  refine ⟨fun c h => consumeBits_events_length h, ?_⟩
  rw [consumeBits_append]
  cases consumeBits r xs with
  | none => rfl
  | some a => cases hb : consumeBits a.regs ys <;> simp [hb]

/-- Settles O56: by induction on the bits, the answer and the fault apart. -/
theorem bitCallIsARunOfTransactions : Obligations.BitCallIsARunOfTransactions := by
  intro s bits
  refine ⟨fun c h => ?_, runBits_of_consumeBits_none⟩
  obtain ⟨t, hrun, ht⟩ := runBits_of_consumeBits h
  exact ⟨t, hrun, ht.fsm, ht.events, ht.deliveries, ht.ptd, ht.params, ht.bits, ht.ptdEvents, ht.consumed⟩

/-- Settles O5: the port's words go to the bit decoder. -/
theorem onlyBitsEnterTheFrameMachine : Obligations.OnlyBitsEnterTheFrameMachine :=
  fun _ _ => decodeBit_eq_notABit_iff

/-- Settles O19: the FSM's step is that of the cleared registers, at the same time. -/
theorem resetCascadesIntoSync : Obligations.ResetCascadesIntoSync := by
  intro b s hs
  rw [exec_bitInstr, exec_bitInstr]
  exact runBit_congr_fsm (fsmTransaction_of_reset hs)

/-- Settles O20: a 0-bit in SYNC. -/
theorem zeroInSyncIsCounted : Obligations.ZeroInSyncIsCounted :=
  fun _ hs => exec_bitInstr_of_step ((fsmTransaction_of_sync hs).trans (congrArg some syncBit_zero))

/-- Settles O21: a 1-bit in SYNC with the zeros counted, at the time on the input. -/
theorem twelveZerosSynchronize : Obligations.TwelveZerosSynchronize := by
  intro s now hs hz htime
  have hnow : s.now = now := by rw [State.now, htime]
  rw [← hnow]
  exact exec_bitInstr_of_step ((fsmTransaction_of_sync hs).trans (congrArg some (syncBit_one_of_enough hz)))

/-- Settles O23: a 1-bit in SYNC with too few zeros counted. -/
theorem fewZerosAbortSync : Obligations.FewZerosAbortSync :=
  fun _ hs hz => exec_bitInstr_of_step ((fsmTransaction_of_sync hs).trans (congrArg some (syncBit_one_of_few hz)))

/-- Settles O24: the data bit's registers, with the parity sum and the shifted byte as numbers. -/
theorem dataBitShiftsIntoItsByte : Obligations.DataBitShiftsIntoItsByte := by
  intro b s h8 hframe
  rw [← paritySum_eq_ofNat, ← shiftIn_eq_ofNat]
  exact exec_bitInstr_of_step (fsmTransaction_data s.now hframe h8.ne)

/-- Settles O25: an even group's ninth bit closes the byte. -/
theorem evenGroupClosesItsByte : Obligations.EvenGroupClosesItsByte :=
  fun _ _ h8 hp hin => exec_bitInstr_of_step (fsmTransaction_even h8 hp hin)

/-- Settles O26: an odd group's ninth bit moves to RESET. -/
theorem oddGroupAbortsTheFrame : Obligations.OddGroupAbortsTheFrame :=
  fun _ _ hs h8 hp => exec_bitInstr_of_step (fsmTransaction_odd h8 hp hs)

/-- Settles O27: the fourth byte is closed and TAIL entered, the length by the command byte's bit 5. -/
theorem commandByteDecidesTheLength : Obligations.CommandByteDecidesTheLength := by
  intro b s hs h8 hp hn
  have hstep : fsmTransaction b s.now s.fsm = some ⟨enterTail (withClosedByte s.fsm), .noEvent, none⟩ := by
    rw [fsmTransaction, hs]
    exact headBit_command b s.fsm h8 hp hn
  have hfour : BitVec.ofNat 3 (s.fsm.nbytes.toNat + 1) = 4 := by rw [hn]; rfl
  rw [exec_bitInstr_of_step hstep, ← frameLength_eq_ite_digit, ← hfour]
  rfl

end Sys2Proof.Proofs
end

section
/-! Inputs that no unit stops at (60_exceptions.md R136 to R142, R152): invalid symbols, odd groups, idle edges, and that every
edge from the invariant is answered. -/

namespace Sys2Proof.Machine

/-- Words that all decode run to their end from the strengthened invariant, which every operation answers from and keeps. -/
theorem runWords_answers {words : List PortWord} {s : State} (hs : s.Sound)
    (hdecode : ∀ w ∈ words, ∃ i, decode s.params w = .ok i) : ∃ t, runWords words s = .next t := by
  induction words generalizing s with
  | nil => exact ⟨s, rfl⟩
  | cons w rest ih =>
    obtain ⟨⟨i, hi⟩, hrest⟩ := List.forall_mem_cons.1 hdecode
    obtain ⟨u, he, hu⟩ := exec_sound i hs
    rw [runWords_cons hi, he]
    exact ih hu (exec_params he ▸ hrest)

/-- Every symbol but a low and a high one is invalid (40_pulse_timing.md R85). -/
theorem ptdTransaction_of_invalid (p : Params) (r : PtdRegs) {x : Byte} (h : ¬ (x = 0 ∨ x = 1)) :
    ptdTransaction p r x = ptdInvalid r := by
  obtain ⟨h0, h1⟩ := not_or.1 h
  rw [ptdTransaction, if_neg h1, if_neg h0]

/-- The symbols that the PTD counts, the low and the high ones (40_pulse_timing.md R81). -/
abbrev validSymbols (syms : List Byte) : List Byte := syms.filter fun x => x = 0 ∨ x = 1

/-- A chunk call with room for all its symbols is the call on the valid ones, but for the count: an invalid symbol is
consumed and leaves the registers and the room as they are (60_exceptions.md R138). -/
theorem consumeChunk_eq_of_validSymbols (p : Params) (r : PtdRegs) {syms : List Byte} {cap : Nat} (hcap : syms.length ≤ cap) :
    consumeChunk p r syms cap =
      ⟨syms.length, (consumeChunk p r (validSymbols syms) cap).bits, (consumeChunk p r (validSymbols syms) cap).regs⟩ := by
  induction syms generalizing r cap with
  | nil => rfl
  | cons x xs ih =>
    rw [List.length_cons] at hcap ⊢
    by_cases hx : x = 0 ∨ x = 1
    · have hone := Option.length_toList_le (o := (ptdTransaction p r x).bit)
      have hroom : xs.length ≤ cap - (ptdTransaction p r x).bit.toList.length := by omega
      rw [validSymbols, List.filter_cons_of_pos (by simpa using hx), consumeChunk_cons p r x _ cap (by omega),
        consumeChunk_cons p r x _ cap (by omega)]
      simp only [ih _ hroom]
    · have hstep := ptdTransaction_of_invalid p r hx
      rw [validSymbols, List.filter_cons_of_neg (by simpa using hx), consumeChunk_cons_silent xs (by omega)
        (congrArg PtdStep.regs hstep) (congrArg PtdStep.bit hstep)]
      simp only [ptdInvalid, ih r (Nat.le_of_succ_le hcap)]

/-- The registers at a bit of HEAD or TAIL have the byte in progress in its place (41_frame_machine.md R130). -/
theorem inFrame_of_inv {p : Params} {r : FsmRegs} (hr : r.Inv p) (hs : r.st = .head ∨ r.st = .tail) : r.InFrame := by
  obtain ⟨-, -, -, -, -, hhead, htail⟩ := hr
  rcases hs with hs | hs
  · obtain ⟨-, hbytes, -⟩ := hhead hs
    exact .inl ⟨hs, hbytes⟩
  · obtain ⟨-, -, hbytes, hlast⟩ := htail hs
    exact .inr ⟨hs, hbytes, by rcases hlast with h | h <;> simp [h]⟩

/-- The last bit of a list with an odd sum is the one that makes the sum of the others odd. -/
theorem odd_of_sumMod2_append {bits : List Bit} {b : Bit} (h : sumMod2 (bits ++ [b]) = 1) :
    ((sumMod2 bits).toNat + b.toNat) % 2 = 1 := by
  rw [sumMod2, List.foldl_append] at h
  exact (BitVec.toNat_add _ _).symm.trans (congrArg BitVec.toNat h)

/-- What a symbol transaction adds to the record: its event, one symbol, its bit if any, and at most one delivery
(60_exceptions.md R142; entry 14). -/
theorem runSymbol_trace {p : PtdStep} {s t : State} (h : runSymbol p s = .next t) :
    t.trace.ptdEvents = s.trace.ptdEvents ++ [p.event] ∧ t.trace.consumed = s.trace.consumed + 1
      ∧ t.trace.bits = s.trace.bits ++ p.bit.toList
      ∧ ∃ d : Option Delivery, t.trace.deliveries = s.trace.deliveries ++ d.toList := by
  rcases runSymbol_cases p s with hr | ⟨b, -, hr⟩
  · cases hr.symm.trans h
    exact ⟨rfl, rfl, rfl, none, (List.append_nil _).symm⟩
  · obtain ⟨f, -, rfl⟩ := runBit_eq_next_iff.1 (hr.symm.trans h)
    exact ⟨rfl, rfl, rfl, f.delivery, rfl⟩

end Sys2Proof.Machine

namespace Sys2Proof.Proofs

open Sys2Proof.Machine

/-- Settles O42: the edge is sampled into the strengthened invariant, and the ports present only words that decode. -/
theorem noInputStopsTheMachine : Obligations.NoInputStopsTheMachine :=
  fun _ hs => runWords_answers (sample_sound _ hs) fun _ hw => exists_decode_of_mem_words hw

/-- Settles O15: by induction on the symbols. -/
theorem invalidSymbolsDoNotBreakARun : Obligations.InvalidSymbolsDoNotBreakARun :=
  fun p r _ _ hcap => consumeChunk_eq_of_validSymbols p r hcap

/-- Settles O32: eight data bits are absorbed and summed, and the ninth leaves the group odd. -/
theorem oddGroupDropsTheFrame : Obligations.OddGroupDropsTheFrame := by
  intro p r group time k hinv hs hbits hparity hlen hsum
  have ⟨hwf, _⟩ := hinv
  obtain ⟨bits, b, rfl⟩ := (List.eq_nil_or_concat' group).resolve_left (List.ne_nil_of_length_pos (by omega))
  have hdata : bits.length = 8 := by simpa using hlen
  obtain ⟨g, hrun, hg⟩ := consumeBits_data (bits := bits) time k hwf (inFrame_of_inv hinv hs) (by simp [hbits, hdata])
  have h8 : g.nbits.toNat = 8 := by rw [hg.nbits, hbits, hdata]; rfl
  have hodd : (g.parity.toNat + b.toNat) % 2 = 1 := by
    rw [hg.parity, hparity]
    exact odd_of_sumMod2_append hsum
  have hninth := consumeBits_timed_singleton (k := k + bits.length) time (fsmTransaction_odd h8 hodd (hg.st ▸ hs))
  refine ⟨g.toReset, ?_, rfl⟩
  rw [consumeBits_timed_append hrun hninth, hdata]
  rfl

/-- Settles O52: the record holds the PTD's step, whose bit and event stand on the ports. -/
theorem oneEventPerSymbol : Obligations.OneEventPerSymbol := by
  intro i s t hfmt h
  obtain ⟨x, hx⟩ := exec_of_sym8 hfmt
  rw [hx] at h
  obtain ⟨hbit, hevt⟩ := runSymbol_ptdPorts h
  obtain ⟨hevents, hconsumed, hbits, d, hdeliveries⟩ := runSymbol_trace h
  refine ⟨hevt ▸ hevents, hconsumed, hbit ▸ hbits, ?_⟩
  cases d with
  | none => exact .inl (hdeliveries.trans (List.append_nil _))
  | some d => exact .inr ⟨d, hdeliveries⟩

/-- Settles O48: without a word the step only samples the edge. -/
theorem idleEdgeHoldsTheState : Obligations.IdleEdgeHoldsTheState := by
  intro s hwords
  refine ⟨s.sample s.nextEdge, ?_, rfl, rfl, rfl, rfl, rfl, rfl, rfl, rfl, rfl⟩
  rw [step_eq, hwords, runWords_nil]

end Sys2Proof.Proofs
end

section
/-! Reset and the clock edge (70_reset_and_hazards.md R153 to R157, R167, R170): what a reset discards, what an edge with
`rst = 1` presents, and the step as the run of the presented words. -/

namespace Sys2Proof.Machine

/-- RESET completes from every state (70_reset_and_hazards.md R153). -/
@[simp] theorem exec_reset (s : State) : exec .reset s = .next s.applyReset := rfl

/-- Without a rate query a reset edge presents the reset alone (70_reset_and_hazards.md R153). -/
theorem words_of_rst (p : Params) {e : Pins} (hrst : e.rst = true) (hrate : e.rateNout = none) :
    e.words p = [⟨.rst1, 1⟩] := by
  simp [Pins.words, Pins.rateWords, hrst, hrate]

/-- The edge driven next is the first of the stimulus. -/
theorem nextEdge_of_cons {s : State} {e : Pins} {rest : List Pins} (h : s.stimulus = e :: rest) : s.nextEdge = e := by
  rw [State.nextEdge, h, List.headD_cons]

/-- The step on an edge whose first word decodes: its operation on the sampled machine, then the other words. -/
theorem step_of_words {s : State} {w : PortWord} {rest : List PortWord} {i : Instr}
    (hwords : s.nextEdge.words s.params = w :: rest) (hdecode : decode s.params w = .ok i) :
    (rest = [] → step s = exec i (s.sample s.nextEdge))
      ∧ ∀ t, exec i (s.sample s.nextEdge) = .next t → step s = runWords rest t := by
  rw [step_eq, hwords]
  refine ⟨?_, fun t ht => ?_⟩
  · rintro rfl
    exact runWords_single hdecode
  · rw [runWords_cons (s := s.sample s.nextEdge) hdecode, ht]

end Sys2Proof.Machine

namespace Sys2Proof.Proofs

open Sys2Proof.Machine

/-- Settles O44: sampling an edge and every operation keep the parameters. -/
theorem parametersNeverChange : Obligations.ParametersNeverChange :=
  fun _ _ => step_params

/-- Settles O22: the 1-bit synchronizes at the model's `now`, there a free value cut to the timestamp's width. -/
theorem unstableTimeSynchronizes : Obligations.UnstableTimeSynchronizes := by
  intro s hs hz htime
  have hnow : s.now < 2 ^ s.params.tsW := State.now_lt (by simp [htime])
  have hstep : fsmTransaction 1 s.now s.fsm = some ⟨{ s.fsm with ts := s.now, nbits := 0, st := .head }, .syncOk, none⟩ :=
    (fsmTransaction_of_sync hs).trans (congrArg some (syncBit_one_of_enough hz))
  exact ⟨s.now, hnow, exec_bitInstr_of_step hstep⟩

/-- Settles O39: the free bytes make a canonical buffer, and the free time is cut to the timestamp's width. -/
theorem resetGivesTheResetValues : Obligations.ResetGivesTheResetValues := by
  intro s
  have hpkt : s.applyReset.fsm.pkt.Wf := Memory.wf_ofBytes _
  have hts : s.applyReset.fsm.ts < 2 ^ s.params.tsW := Nat.mod_lt _ (Nat.two_pow_pos _)
  exact ⟨s.applyReset, exec_reset s, rfl, rfl, rfl, rfl, rfl, rfl, hpkt, hts, rfl, rfl, rfl, rfl, rfl⟩

/-- Settles O45: the sampled machine written out is the model's `sample`. -/
theorem stepRunsTheDecodedOperation : Obligations.StepRunsTheDecodedOperation :=
  fun _ _ _ _ => step_of_words

/-- Settles O47: the edge presents the reset's word alone, and the reset keeps the record and quiets `sym_ready`. -/
theorem resetEdgeTakesNoOtherTransaction : Obligations.ResetEdgeTakesNoOtherTransaction := by
  intro s e rest hstim hrst hrate
  have hstep : step s = .next (s.sample e).applyReset := by
    rw [step_eq, nextEdge_of_cons hstim, words_of_rst _ hrst hrate, runWords_single (decode_resetWord _), exec_reset]
  refine ⟨_, hstep, exec_reset _, rfl, rfl, ?_⟩
  rw [applyReset_stimulus, sample_stimulus, hstim, List.tail_cons]

end Sys2Proof.Proofs
end
